-- ==== Sys2Proof/Config.lean ====
section
/-! DEFINITION. The constants the spec fixes, under its own names (00_scope.md R9: "A model keeps them as named
constants and never as free parameters"), the two parameters it adds (R12), and the one direction it asks a model to
keep as a configuration field (the tie of `round`, 93_implementation_defined.md U4).

The numeric literals are normative as written and unaudited (U14): UNVERIFIED, unsafe, log entry 13. -/

namespace Sys2Proof.Config

/-- Bit periods per second (R9, BAUD). -/
def BAUD : Nat := 1200

/-- The idle run must exceed this many bit periods (R9, IDLE_PERIODS). -/
def IDLE_PERIODS : Nat := 9

/-- Bit periods per byte slot (R9, SLOT). -/
abbrev SLOT : Nat := 10

/-- Bits read per byte slot (R9, DATA_BITS). -/
abbrev DATA_BITS : Nat := 8

/-- Bytes per Packet (R9, PACKET_LEN). -/
abbrev PACKET_LEN : Nat := 9

/-- Recovered positions a Packet needs (R9, NEED = `9*10 - 2`). -/
def NEED : Nat := PACKET_LEN * SLOT - 2

/-- Bytes per DisplayValue window (R9, WIN). -/
abbrev WIN : Nat := 6

/-- Window start offsets tried, in this order (R9, OFFSETS). -/
def OFFSETS : List (Fin 4) := [0, 1, 2, 3]

/-- Inclusive lower end of the ASCII digit bytes (R9, DIGIT_LO). -/
def DIGIT_LO : Nat := 48

/-- Inclusive upper end of the ASCII digit bytes (R9, DIGIT_HI). -/
def DIGIT_HI : Nat := 57

/-- Entries of the HistoryStack (R9, HIST). -/
abbrev HIST : Nat := 3

/-- Width of one sample on the input port, the default of the parameter SAMPLE_W (R12, R91). DESIGN CHOICE, safe
(log entry 7): no result depends on it, since only the sign of a sample counts. -/
abbrev SAMPLE_W : Nat := 16

/-- Width of the word `N` that leads a buffer in the flat encoding (R78). -/
abbrev COUNT_W : Nat := 32

/-- Width of a DisplayValue register (R74). -/
abbrev DISPLAY_W : Nat := 48

/-- Which way `round` sends a value exactly half way between two integers (U4, D3). -/
inductive TieRule where
  /-- Half goes to the greater integer. -/
  | up
  /-- Half goes to the lesser integer. -/
  | down
deriving DecidableEq, Repr

/-- The tie direction of this instance: up (43_clock_recovery.md R122). DESIGN CHOICE, unsafe (log entry 9): the
source says only "rounding to the nearest integer". -/
def tie : TieRule := .up

/-- The sample rate State.reset gives an instance, in samples per second. DESIGN CHOICE, unsafe (log entry 5): the
spec fixes no rate (00_scope.md R13), and no statement rests on this number. -/
def resetRate : Nat := 1200

end Sys2Proof.Config
end

