-- ==== Sys2Proof/Word.lean ====
section
/-! DEFINITION. The word types of the core: bits, samples, bytes, DisplayValues and the sample rate. -/

namespace Sys2Proof

/-- A bit of the line: `true` is 1 (mark), `false` is 0 (space) (00_scope.md R18). -/
abbrev Bit := Bool

/-- One sample of the input port, signed two's complement (40_bit_sampler.md R91). -/
abbrev Sample := BitVec Config.SAMPLE_W

/-- A Packet byte (20_memory.md R40). -/
abbrev Byte := BitVec 8

/-- A DisplayValue register: six bytes, the first character in bits 47 to 40 (30_encoding.md R74). -/
abbrev DisplayValue := BitVec Config.DISPLAY_W

/-- The configuration word `TPB_Q = SR` (00_scope.md R11): a positive integer by type, so an instance with a rate of
zero or less cannot be built (70_reset_and_hazards.md R226). It stands for `TPB = hz / 1200`, taken exactly. -/
structure SampleRate where
  /-- `SR`, in samples per second. -/
  hz : Nat
  /-- `SR` is not zero (R196). -/
  pos : 0 < hz
deriving DecidableEq, Repr

/-- The DisplayValue `"000000"` (30_encoding.md R75). -/
def Z : DisplayValue := 0x303030303030#48

end Sys2Proof
end

