-- ==== Sys2Proof/Syntax.lean ====
section
/-! DEFINITION. The instructions: one constructor per row of spec/opcode_table.json. The first four are what the
command port carries (30_encoding.md R77, R85); the other eight are the operations a BUF command runs, which carry a
label and no operand of their own (R79). -/

namespace Sys2Proof

/-- A row of spec/opcode_table.json. -/
inductive Instr where
  /-- RESET (47_commands.md R171). -/
  | reset
  /-- GATE with the new value of the gate (47_commands.md R172). -/
  | gate (g : Bit)
  /-- BUF with the buffer `SMP[0 .. N-1]`; `N` is the length of the list (47_commands.md R174). -/
  | buf (smp : List Sample)
  /-- The reserved command opcode `11` (30_encoding.md R85). -/
  | reserved
  /-- SAMPLE, operation 0 (40_bit_sampler.md R90). -/
  | sample
  /-- SYNC, operation 1 (41_frame_sync.md R100). -/
  | sync
  /-- RLE, operation 2 (42_rle.md R110). -/
  | rle
  /-- CLKREC, operation 3 (43_clock_recovery.md R120). -/
  | clkrec
  /-- EXTRACT, operation 4 (44_byte_extract.md R129). -/
  | extract
  /-- VALIDATE, operation 5 (45_digit_validate.md R140). -/
  | validate
  /-- PUSH, operation 6 (46_phase.md R150). -/
  | push
  /-- PHASE, operation 7 (46_phase.md R157). -/
  | phase
deriving DecidableEq, Repr

/-- The column "format" of spec/opcode_table.json: which of the two code spaces a row's bits belong to. The two spaces
use the same three-bit numbers for different things (R77, R79). -/
inductive Format where
  /-- A command word on the command port, with the operand words that follow it (R77, R78). -/
  | cw
  /-- An operation index `OP[2:0]`, a label that the host cannot issue (R79). -/
  | op
deriving DecidableEq, Repr

/-- The code space of an instruction. -/
def Instr.format : Instr → Format
  | .reset | .gate _ | .buf _ | .reserved => .cw
  | .sample | .sync | .rle | .clkrec | .extract | .validate | .push | .phase => .op

/-- The width column of spec/opcode_table.json in bits: 3, and for BUF `3 + 32 + 16*N` (R78, R86). -/
def Instr.width : Instr → Nat
  | .buf smp => 3 + Config.COUNT_W + Config.SAMPLE_W * smp.length
  | .reset | .gate _ | .reserved => 3
  | .sample | .sync | .rle | .clkrec | .extract | .validate | .push | .phase => 3

end Sys2Proof
end

