-- ==== Sys2Proof/Machine/State.lean ====
section
/-! DEFINITION. The state of the core as plain data, its Results, and the reasons a step can stop. -/

namespace Sys2Proof.Machine

/-- A Run: a bit and the number of samples it lasts, at least 1 (30_encoding.md R76). -/
structure Run where
  bit : Bit
  len : Nat
  pos : 0 < len
deriving DecidableEq, Repr

/-- A Packet: exactly 9 bytes, `PACKET[0]` first in time (20_memory.md R45, 10_state.md R33). -/
abbrev Packet := Vector Byte Config.PACKET_LEN

/-- The six bytes a window takes from a Packet, in order (45_digit_validate.md R141). -/
abbrev Window := Vector Byte Config.WIN

/-- The HistoryStack: exactly three DisplayValues, newest first (10_state.md R21). -/
structure History where
  /-- `H[0]`, the newest. -/
  s0 : DisplayValue
  /-- `H[1]`. -/
  s1 : DisplayValue
  /-- `H[2]`, the oldest. -/
  s2 : DisplayValue
deriving DecidableEq, Repr

/-- The HistoryStack as its sequence of HIST entries, newest first: `H[i]` is entry `i` (00_scope.md R9, R16; 10_state.md
R21, R33). -/
def History.entries (h : History) : Vector DisplayValue Config.HIST := #v[h.s0, h.s1, h.s2]

/-- The phase events of one command, `EV[0]` to `EV[4]` (30_encoding.md R82). -/
structure Events where
  /-- `EV[0]`. -/
  zero : Bit
  /-- `EV[1]`. -/
  reset : Bit
  /-- `EV[2]`. -/
  starting : Bit
  /-- `EV[3]`. -/
  running : Bit
  /-- `EV[4]`. -/
  stopped : Bit
deriving DecidableEq, Repr

/-- No event, `EV = 0`. -/
def Events.none : Events := ⟨false, false, false, false, false⟩

/-- How a BUF command ended (30_encoding.md R81). Codes 5 to 7 are never produced and have no constructor. -/
inductive BufOutcome where
  /-- A DisplayValue was decoded and pushed. -/
  | ok
  /-- SYNC found no frame start. -/
  | noSync
  /-- Fewer than 88 positions in `S`. -/
  | truncated
  /-- No window of six digit bytes. -/
  | noDigitMatch
  /-- The gate was closed and the buffer was skipped. -/
  | gated
deriving DecidableEq, Repr

/-- The Result of a BUF command (30_encoding.md R80): an outcome, a set of events and an optional value. VALID is
`value.isSome`. -/
structure Result where
  outcome : BufOutcome
  ev : Events
  value : Option DisplayValue
deriving DecidableEq, Repr

/-- Where a BUF command stands in the wired order, with the transaction-local values a later operation still reads
(10_state.md R27). Between commands it is `idle` and holds none of them. DESIGN CHOICE, safe (log entry 1): the spec
counts these values as no state, and no host command sees a stage other than `idle`. -/
inductive Stage where
  /-- No BUF command is running. -/
  | idle
  /-- SAMPLE is next; it reads `SMP`. -/
  | atSample (smp : List Sample)
  /-- SYNC is next; it reads `BITS`. -/
  | atSync (bits : List Bit)
  /-- RLE is next; it reads `BITS` and `s`. -/
  | atRle (bits : List Bit) (start : Nat)
  /-- CLKREC is next; it reads `RUNS`. -/
  | atClkrec (runs : List Run)
  /-- EXTRACT is next; it reads `STREAM`. -/
  | atExtract (stream : List Bit)
  /-- VALIDATE is next; it reads `PACKET`. -/
  | atValidate (packet : Packet)
  /-- PUSH is next; it reads `v`. -/
  | atPush (v : DisplayValue)
  /-- PHASE is next; `v` waits for the Result. -/
  | atPhase (v : DisplayValue)
  /-- All eight operations have run; the Result takes `v` and `EV`. -/
  | atReturn (v : DisplayValue) (ev : Events)
deriving DecidableEq, Repr

/-- The core. The spec's persistent state is `h` and `g` (10_state.md R20). -/
structure State where
  /-- The HistoryStack `H` (R21). -/
  h : History
  /-- The capturing gate `G` (R24). -/
  g : Bit
  /-- `TPB_Q = SR`, a constant of the instance that nothing writes (R29). -/
  tpbQ : SampleRate
  /-- The transaction-local values (R27). -/
  stage : Stage
  /-- The Result the command that has just run returned, an output (30_encoding.md R80). DESIGN CHOICE, safe (log entry
  2): the core does not hold it (R32), so no instruction reads it and every step overwrites it. -/
  result : Option Result
  /-- The commands issued on the command port and not yet taken, in the flat encoding (30_encoding.md R78). DESIGN
  CHOICE, safe (log entries 3 and 4). -/
  port : List Bit
deriving DecidableEq, Repr

/-- Reasons to stop with a fault. The core itself has none: a miss is a Result (60_exceptions.md R190, R197). -/
inductive Fault where
  /-- Raised by the meanings of the eight operations, and by the end of BUF, when the operation is not the next one of
  a running BUF command: its order is wired and its inputs do not exist elsewhere (30_encoding.md R79, 10_state.md R27).
  Safe (log entry 17); no step reaches it. -/
  | outOfOrder (mnemonic : String)
deriving DecidableEq, Repr

/-- Reasons to refuse. -/
inductive Refusal where
  /-- Raised by an arm of `exec` that has no meaning yet; no arm is left that raises it. Safe. -/
  | notModelled (mnemonic : String)
  /-- Raised by the reserved command opcode `11`: "no meaning: a model refuses it" (30_encoding.md R85). Safe (log entry
  15). -/
  | reservedCommand
  /-- Raised by `step` when the bits on the command port end inside a command (30_encoding.md R78). Safe (log entry
  18). -/
  | portIncomplete
deriving DecidableEq, Repr

/-- The history after reset, `[Z, Z, Z]` (10_state.md R30). -/
def History.initial : History := ⟨Z, Z, Z⟩

/-- A built instance with the given sample rate right after power-on reset (10_state.md R30, 70_reset_and_hazards.md
R220): `H = [Z, Z, Z]`, `G = 0`, nothing running and nothing issued. -/
def State.resetAt (sr : SampleRate) : State where
  h := History.initial
  g := false
  tpbQ := sr
  stage := .idle
  result := none
  port := []

/-- The machine right after reset. Its sample rate is the model's choice (log entry 5). -/
def State.reset : State := State.resetAt ⟨Config.resetRate, by decide⟩

end Sys2Proof.Machine
end

