-- ==== Sys2Proof/Machine/Operands.lean ====
section
/-! DEFINITION. The operand forms: how a sample spells a bit, eight stream bits a byte, six bytes a DisplayValue. -/

namespace Sys2Proof.Machine

/-- `SAMPLE(x)`: 1 exactly when the sample is below zero (40_bit_sampler.md R90). A zero sample gives 0 (R92);
UNVERIFIED, unsafe (log entry 8). -/
def sampleBit (x : Sample) : Bit := decide (x.toInt < 0)

/-- `BITS[i] = SAMPLE(SMP[i])`, in index order (R95). -/
def sampleAll (smp : List Sample) : List Bit := smp.map sampleBit

/-- Stream position `j`. The default is never read: a byte is built only when every position it needs is present
(44_byte_extract.md R132). -/
def streamBit (S : List Bit) (j : Nat) : Bit := S.getD j false

/-- `PACKET[k]`: data bit `i` stands at offset `10*k + i` and weighs `2^i` (44_byte_extract.md R131, 20_memory.md
R44). -/
def byteAt (S : List Bit) (k : Nat) : Byte :=
  BitVec.ofNat 8
    ((List.range Config.DATA_BITS).map fun i => 2 ^ i * (streamBit S (Config.SLOT * k + i)).toNat).sum

/-- The nine bytes of `S`, in time order (44_byte_extract.md R131, 20_memory.md R45). -/
def packetOf (S : List Bit) : Packet := Vector.ofFn fun k => byteAt S k.val

/-- `isdigit(b)`, on the unsigned byte (45_digit_validate.md R141, R145). -/
def isDigit (b : Byte) : Bool := decide (Config.DIGIT_LO ≤ b.toNat ∧ b.toNat ≤ Config.DIGIT_HI)

/-- A window offset and an index inside the window stay inside the Packet (45_digit_validate.md R141). -/
theorem inPacket (o : Fin 4) (j : Nat) (hj : j < Config.WIN) : o.val + j < Config.PACKET_LEN := by
  have ho := o.isLt
  simp only [Config.WIN] at hj
  simp only [Config.PACKET_LEN]
  omega

/-- The window `PACKET[o .. o+5]` (45_digit_validate.md R141). -/
def window (p : Packet) (o : Fin 4) : Window :=
  #v[p[o.val + 0]'(inPacket o _ (by decide)), p[o.val + 1]'(inPacket o _ (by decide)), p[o.val + 2]'(inPacket o _ (by decide)),
    p[o.val + 3]'(inPacket o _ (by decide)), p[o.val + 4]'(inPacket o _ (by decide)), p[o.val + 5]'(inPacket o _ (by decide))]

/-- All six bytes of a window are digits. -/
def allDigits (w : Window) : Bool :=
  isDigit w[0] && isDigit w[1] && isDigit w[2] && isDigit w[3] && isDigit w[4] && isDigit w[5]

/-- The register `c0, c1, c2, c3, c4, c5`, the first character highest (30_encoding.md R74). The conversion to characters
changes no bit (R68). -/
def displayOf (w : Window) : DisplayValue := w[0] ++ w[1] ++ w[2] ++ w[3] ++ w[4] ++ w[5]

/-- Character `j` of a DisplayValue register, 0 the first (30_encoding.md R74). -/
def charAt (v : DisplayValue) (j : Nat) : Byte := v.extractLsb' (40 - 8 * j) 8

/-- The register holds six digit characters (10_state.md R23). -/
def isDisplayValue (v : DisplayValue) : Bool := (List.range Config.WIN).all fun j => isDigit (charAt v j)

end Sys2Proof.Machine
end

