-- ==== Sys2Proof/Machine/Flags.lean ====
section
/-! DEFINITION. The one-bit values of the core (10_state.md R28): the idle test that sets WAIT, and the five phase
predicates; and the codes a Result packs them into (30_encoding.md R80 to R82). -/

namespace Sys2Proof.Machine

/-- `exceeds(c)`: `c > 9 * TPB` with `TPB = SR / 1200` exact, that is `1200 * c > 9 * SR` (41_frame_sync.md R102).
DESIGN CHOICE, unsafe (log entry 10): exact integer arithmetic. -/
def exceeds (sr : SampleRate) (c : Nat) : Bool := decide (Config.BAUD * c > Config.IDLE_PERIODS * sr.hz)

/-- Zero (46_phase.md R152). -/
def phaseZero (h : History) : Bit := decide (h.s0 = Z ∧ h.s1 = Z ∧ h.s2 = Z)

/-- Reset (46_phase.md R153). -/
def phaseReset (h : History) : Bit := decide (h.s0 = Z ∧ h.s1 ≠ Z)

/-- Starting (46_phase.md R154). -/
def phaseStarting (h : History) : Bit := decide (h.s0 ≠ Z ∧ h.s1 = Z)

/-- Running (46_phase.md R155). -/
def phaseRunning (h : History) : Bit := decide (h.s0 ≠ Z ∧ h.s1 ≠ Z ∧ h.s0 ≠ h.s1)

/-- Stopped (46_phase.md R156). -/
def phaseStopped (h : History) : Bit := decide (h.s0 = h.s1 ∧ h.s1 = h.s2 ∧ h.s0 ≠ Z)

/-- `PHASE()`: the five predicates, each evaluated on its own (46_phase.md R157). -/
def phaseEvents (h : History) : Events where
  zero := phaseZero h
  reset := phaseReset h
  starting := phaseStarting h
  running := phaseRunning h
  stopped := phaseStopped h

/-- The outcome code `OUTCOME[2:0]` (30_encoding.md R81). -/
def outcomeCode : BufOutcome → BitVec 3
  | .ok => 0
  | .noSync => 1
  | .truncated => 2
  | .noDigitMatch => 3
  | .gated => 4

/-- `EV[4:0]` (30_encoding.md R82). -/
def eventBits (e : Events) : BitVec 5 :=
  BitVec.ofBool e.stopped ++ BitVec.ofBool e.running ++ BitVec.ofBool e.starting ++ BitVec.ofBool e.reset ++
    BitVec.ofBool e.zero

/-- The packed record `RES[56:0]` that hardware drives: OUTCOME, EV, VALID, VALUE, with VALUE zero where there is none
(30_encoding.md R80). -/
def packResult (r : Result) : BitVec 57 :=
  outcomeCode r.outcome ++ eventBits r.ev ++ BitVec.ofBool r.value.isSome ++ r.value.getD 0

/-- How many notifications a host raises for a Result: its phase events and "value received" (47_commands.md R179). -/
def notificationCount (r : Result) : Nat :=
  r.ev.zero.toNat + r.ev.reset.toNat + r.ev.starting.toNat + r.ev.running.toNat + r.ev.stopped.toNat +
    r.value.isSome.toNat

end Sys2Proof.Machine
end

