-- ==== Sys2Proof/Machine/Ops.lean ====
section
/-! DEFINITION. The named operations over the state: opening a BUF command, ending it with a Result (the core's one way
out, a soft miss included: it has no exception entry and no return, 60_exceptions.md R201, R202), running the next
operation, and pushing into the history. -/

namespace Sys2Proof.Machine

/-- What every meaning answers. -/
abbrev Answer := Host.Outcome State Fault Refusal

/-- The Result of a command that decoded `v` (30_encoding.md R80). -/
def Result.decoded (v : DisplayValue) (ev : Events) : Result := ⟨.ok, ev, some v⟩

/-- The Result of a miss or a skip: the outcome and nothing else (60_exceptions.md R195). -/
def Result.missed (o : BufOutcome) : Result := ⟨o, Events.none, none⟩

/-- Is no BUF command running? -/
def Stage.isIdle : Stage → Bool
  | .idle => true
  | .atSample _ | .atSync _ | .atRle _ _ | .atClkrec _ | .atExtract _ | .atValidate _ => false
  | .atPush _ | .atPhase _ | .atReturn _ _ => false

/-- The running BUF command goes on to the given stage. -/
def State.goTo (s : State) (st : Stage) : State := { s with stage := st }

/-- A BUF command begins: the core has the buffer and no Result yet (10_state.md R27). -/
def State.openBuf (s : State) (smp : List Sample) : State := { s with stage := .atSample smp, result := none }

/-- A BUF command ends with a Result; its transaction-local values are gone (10_state.md R27, 30_encoding.md R80). -/
def State.endBuf (s : State) (r : Result) : State := { s with stage := .idle, result := some r }

/-- `miss <Name>`: the command ends here with the named outcome; `H` and `G` are as they were (00_scope.md R16,
60_exceptions.md R201). -/
def State.miss (s : State) (o : BufOutcome) : State := s.endBuf (Result.missed o)

/-- The history after a push: all three writes at once, from the old values (46_phase.md R150). -/
def History.push (h : History) (v : DisplayValue) : History := ⟨v, h.s0, h.s1⟩

/-- The state with `v` pushed. -/
def State.pushValue (s : State) (v : DisplayValue) : State := { s with h := s.h.push v }

/-- The state RESET leaves: what power-on reset leaves in `H` and `G`, nothing running and no Result, the instance's rate
untouched (47_commands.md R171, 70_reset_and_hazards.md R221). -/
def State.clear (s : State) : State :=
  { s with h := History.initial, g := false, stage := .idle, result := none }

/-- The state with the gate written and no Result returned (47_commands.md R172). -/
def State.setGate (s : State) (g : Bit) : State := { s with g := g, result := none }

/-- The next operation of a BUF command: it runs while the command runs, and not after a miss has ended it
(47_commands.md R176). -/
def thenOp (a : Answer) (op : State → Answer) : Answer :=
  match a with
  | .next s => if s.stage.isIdle then .next s else op s
  | .fault f => .fault f
  | .refused r => .refused r

end Sys2Proof.Machine
end

