-- ==== Sys2Proof/Machine/Phase.lean ====
section
/-! DEFINITION. The phase-inference operations PUSH and PHASE (46_phase.md). -/

namespace Sys2Proof.Machine

/-- PUSH (46_phase.md R150): `(H[0], H[1], H[2]) <- (v, H[0], H[1])`, with no comparison first (R151). -/
def execPush (s : State) : Answer :=
  match s.stage with
  | .atPush v => .next ((s.pushValue v).goTo (.atPhase v))
  | _ => .fault (.outOfOrder "PUSH")

/-- PHASE (46_phase.md R157): the five predicates of `H` as PUSH left it; `H` is only read. -/
def execPhase (s : State) : Answer :=
  match s.stage with
  | .atPhase v => .next (s.goTo (.atReturn v (phaseEvents s.h)))
  | _ => .fault (.outOfOrder "PHASE")

end Sys2Proof.Machine
end

