-- ==== Sys2Proof/Machine/Recovery.lean ====
section
/-! DEFINITION. The bit-recovery operations SAMPLE, SYNC, RLE, CLKREC, EXTRACT and VALIDATE: each algorithm as a
function, and each instruction as the step of a running BUF command that reads the stage its predecessor left and
writes the next one (10_state.md R27). -/

namespace Sys2Proof.Machine

/-- SAMPLE over the whole buffer (40_bit_sampler.md R95). -/
def execSample (s : State) : Answer :=
  match s.stage with
  | .atSample smp => .next (s.goTo (.atSync (sampleAll smp)))
  | _ => .fault (.outOfOrder "SAMPLE")

/-- The scan of 41_frame_sync.md R101 from index `i`, with `CNT` and `WAIT` as they stand there. -/
def syncScan (sr : SampleRate) (i cnt : Nat) (wait : Bit) : List Bit → Option Nat
  | [] => none
  | true :: bits => syncScan sr (i + 1) (cnt + 1) (wait || exceeds sr (cnt + 1)) bits
  | false :: bits => if wait then some i else syncScan sr (i + 1) 0 wait bits

/-- `SYNC(BITS)`: `CNT` and `WAIT` start at 0 in every command (10_state.md R31; DEDUCED by the spec's D6, unsafe, log
entry 12). -/
def syncStart (sr : SampleRate) (bits : List Bit) : Option Nat := syncScan sr 0 0 false bits

/-- SYNC (41_frame_sync.md R100); none found is the soft miss NoSync (R104). -/
def execSync (s : State) : Answer :=
  match s.stage with
  | .atSync bits =>
    match syncStart s.tpbQ bits with
    | none => .next (s.miss .noSync)
    | some i => .next (s.goTo (.atRle bits i))
  | _ => .fault (.outOfOrder "SYNC")

/-- Compress the rest of a sequence into runs, `cur` being the last run so far (42_rle.md R111). -/
def rleFrom (cur : Run) : List Bit → List Run
  | [] => [cur]
  | b :: bits =>
    if b = cur.bit then rleFrom ⟨cur.bit, cur.len + 1, Nat.succ_pos _⟩ bits
    else cur :: rleFrom ⟨b, 1, Nat.one_pos⟩ bits

/-- `RLE(X)` (42_rle.md R111). -/
def rleRuns : List Bit → List Run
  | [] => []
  | b :: bits => rleFrom ⟨b, 1, Nat.one_pos⟩ bits

/-- RLE of `BITS[s ..]`, from the frame start on (42_rle.md R113; DEDUCED by the spec's D5, unsafe, log entry 11). -/
def execRle (s : State) : Answer :=
  match s.stage with
  | .atRle bits start => .next (s.goTo (.atClkrec (rleRuns (bits.drop start))))
  | _ => .fault (.outOfOrder "RLE")

/-- `round(L / TPB)` in exact integers, an exact half going as `t` says (43_clock_recovery.md R122, D3): half up is
`floor(L/TPB + 1/2)`, half down is `ceiling(L/TPB - 1/2)`. -/
def repsTie (t : Config.TieRule) (sr : SampleRate) (len : Nat) : Nat :=
  match t with
  | .up => (2 * Config.BAUD * len + sr.hz) / (2 * sr.hz)
  | .down => (2 * Config.BAUD * len + sr.hz - 1) / (2 * sr.hz)

/-- `reps(L)` with the instance's tie rule (43_clock_recovery.md R122). -/
def reps (sr : SampleRate) (len : Nat) : Nat := repsTie Config.tie sr len

/-- `CLKREC(RUNS)`: every run rounded alone, the copies joined in order (43_clock_recovery.md R121, R124). -/
def recoverClock (sr : SampleRate) (runs : List Run) : List Bit :=
  runs.flatMap fun r => List.replicate (reps sr r.len) r.bit

/-- CLKREC (43_clock_recovery.md R120). -/
def execClkrec (s : State) : Answer :=
  match s.stage with
  | .atClkrec runs => .next (s.goTo (.atExtract (recoverClock s.tpbQ runs)))
  | _ => .fault (.outOfOrder "CLKREC")

/-- `EXTRACT(STREAM)`: the first bit is dropped unseen, and fewer than 88 bits after it give no Packet
(44_byte_extract.md R130 to R132). -/
def extractPacket (stream : List Bit) : Option Packet :=
  if (stream.drop 1).length < Config.NEED then none else some (packetOf (stream.drop 1))

/-- EXTRACT (44_byte_extract.md R129); no Packet is the soft miss Truncated (R132). -/
def execExtract (s : State) : Answer :=
  match s.stage with
  | .atExtract stream =>
    match extractPacket stream with
    | none => .next (s.miss .truncated)
    | some p => .next (s.goTo (.atValidate p))
  | _ => .fault (.outOfOrder "EXTRACT")

/-- `VALIDATE(PACKET)`: the first offset whose six bytes are digits (45_digit_validate.md R141, R142). -/
def validatePacket (p : Packet) : Option DisplayValue :=
  (Config.OFFSETS.find? fun o => allDigits (window p o)).map fun o => displayOf (window p o)

/-- VALIDATE (45_digit_validate.md R140); no match is the soft miss NoDigitMatch (R143). -/
def execValidate (s : State) : Answer :=
  match s.stage with
  | .atValidate p =>
    match validatePacket p with
    | none => .next (s.miss .noDigitMatch)
    | some v => .next (s.goTo (.atPush v))
  | _ => .fault (.outOfOrder "VALIDATE")

end Sys2Proof.Machine
end

