-- ==== Sys2Proof/Machine/Commands.lean ====
section
/-! DEFINITION. The commands of the host: RESET, GATE, BUF and the reserved word (47_commands.md, 30_encoding.md R85). -/

namespace Sys2Proof.Machine

/-- RESET (47_commands.md R171): what power-on reset does (70_reset_and_hazards.md R220, R221); `SR` is not touched, and
a command that was running is abandoned. -/
def execReset (s : State) : Answer := .next s.clear

/-- GATE (47_commands.md R172). -/
def execGate (g : Bit) (s : State) : Answer := .next (s.setGate g)

/-- The last line of BUF: `return (Ok, EV, 1, v)` (47_commands.md R174). A miss has returned already. -/
def returnOk (s : State) : Answer :=
  match s.stage with
  | .atReturn v ev => .next (s.endBuf (Result.decoded v ev))
  | _ => .fault (.outOfOrder "BUF")

/-- The eight operations in their wired order, then the return (47_commands.md R174, 30_encoding.md R79). -/
def runPipeline (s : State) : Answer :=
  let sampled := execSample s
  let synced := thenOp sampled execSync
  let compressed := thenOp synced execRle
  let recovered := thenOp compressed execClkrec
  let extracted := thenOp recovered execExtract
  let validated := thenOp extracted execValidate
  let pushed := thenOp validated execPush
  let phased := thenOp pushed execPhase
  thenOp phased returnOk

/-- BUF (47_commands.md R174): the gate test first (R175), then the pipeline. -/
def execBuf (smp : List Sample) (s : State) : Answer :=
  if s.g then runPipeline (s.openBuf smp) else .next (s.miss .gated)

/-- The reserved command opcode: refused by name, in every state (30_encoding.md R85; log entry 15). -/
def execReserved (_ : State) : Answer := .refused .reservedCommand

end Sys2Proof.Machine
end

