-- ==== Sys2Proof/Machine/Dispatch.lean ====
section
/-! DEFINITION. One arm per constructor of Instr, each one direct call of its meaning. -/

namespace Sys2Proof.Machine

def exec (i : Instr) (s : State) : Host.Outcome State Fault Refusal :=
  match i with
  | .reset => Sys2Proof.Machine.execReset s
  | .gate g => Sys2Proof.Machine.execGate g s
  | .buf smp => Sys2Proof.Machine.execBuf smp s
  | .reserved => Sys2Proof.Machine.execReserved s
  | .sample => Sys2Proof.Machine.execSample s
  | .sync => Sys2Proof.Machine.execSync s
  | .rle => Sys2Proof.Machine.execRle s
  | .clkrec => Sys2Proof.Machine.execClkrec s
  | .extract => Sys2Proof.Machine.execExtract s
  | .validate => Sys2Proof.Machine.execValidate s
  | .push => Sys2Proof.Machine.execPush s
  | .phase => Sys2Proof.Machine.execPhase s

end Sys2Proof.Machine
end

