-- ==== Sys2Proof/WellFormed.lean ====
section
/-! DEFINITION. What the flat encoding can carry. Its one limit is the 32-bit word `N` (30_encoding.md R78). -/

namespace Sys2Proof

/-- The buffer's length fits the word `N` of the flat encoding (R78). DESIGN CHOICE, safe (log entry 19): `exec` itself
puts no bound on a buffer (20_memory.md R43). -/
def lengthFits (smp : List Sample) : Bool := decide (smp.length < 2 ^ Config.COUNT_W)

/-- The instruction has an encoding. -/
def Instr.wellFormed : Instr → Bool
  | .buf smp => lengthFits smp
  | .reset | .gate _ | .reserved => true
  | .sample | .sync | .rle | .clkrec | .extract | .validate | .push | .phase => true

end Sys2Proof
end

