-- ==== Sys2Proof/Decode.lean ====
section
/-! DEFINITION. The decoder and the encoder of the flat encoding (30_encoding.md R77 to R79, R85, R86), and the host's
probe `decodeTableWord`.

A code is a list of bits: bit 0 of the first word first, each word's bits from the least significant up, the words in
order. That is how spec/opcode_table.json counts a row's bits, and its width for BUF is `3 + 32 + 16*N` with no padding
between the words. DESIGN CHOICE, safe (log entry 3): the spec leaves the transport to the installation (R78). -/

namespace Sys2Proof

/-- Why a code is no instruction. -/
inductive DecodeError where
  /-- Fewer than the three bits of a command word or label. -/
  | noCommandWord
  /-- A BUF command word without the 32 bits of `N`. -/
  | noLength
  /-- A BUF command whose `N` samples are not all there. -/
  | noSamples
deriving DecidableEq, Repr

/-- The `n` low bits of `v`, least significant first. -/
def bitsOfNat : Nat → Nat → List Bit
  | 0, _ => []
  | n + 1, v => (v % 2 == 1) :: bitsOfNat n (v / 2)

/-- Take a word of `n` bits, least significant first, off the front; none where fewer than `n` are there. -/
def takeWord : Nat → List Bit → Option (Nat × List Bit)
  | 0, bits => some (0, bits)
  | _ + 1, [] => none
  | n + 1, b :: bits => (takeWord n bits).map fun p => (b.toNat + 2 * p.1, p.2)

/-- Take `n` samples of SAMPLE_W bits off the front, in index order (R78). -/
def takeSamples : Nat → List Bit → Option (List Sample × List Bit)
  | 0, bits => some ([], bits)
  | n + 1, bits =>
    match takeWord Config.SAMPLE_W bits with
    | none => none
    | some (w, rest) => (takeSamples n rest).map fun p => (BitVec.ofNat Config.SAMPLE_W w :: p.1, p.2)

/-- The operand of a BUF command: the word `N`, then the samples (R78). -/
def decodeBuffer (bits : List Bit) : Except DecodeError (Instr × List Bit) :=
  match takeWord Config.COUNT_W bits with
  | none => .error .noLength
  | some (n, rest) =>
    match takeSamples n rest with
    | none => .error .noSamples
    | some (smp, rest') => .ok (.buf smp, rest')

/-- A command off the front of the command port: `CW[0]`, `CW[1]`, `CW[2]`, the opcode being `CW[2:1]` (R77). `CW[0]` of
RESET and BUF is ignored (R85). -/
def decodeCommand : List Bit → Except DecodeError (Instr × List Bit)
  | _ :: false :: false :: rest => .ok (.reset, rest)
  | g :: true :: false :: rest => .ok (.gate g, rest)
  | _ :: false :: true :: rest => decodeBuffer rest
  | _ :: true :: true :: rest => .ok (.reserved, rest)
  | _ => .error .noCommandWord

/-- An operation label: `OP[0]`, `OP[1]`, `OP[2]` (R79). -/
def decodeLabel : List Bit → Except DecodeError (Instr × List Bit)
  | false :: false :: false :: rest => .ok (.sample, rest)
  | true :: false :: false :: rest => .ok (.sync, rest)
  | false :: true :: false :: rest => .ok (.rle, rest)
  | true :: true :: false :: rest => .ok (.clkrec, rest)
  | false :: false :: true :: rest => .ok (.extract, rest)
  | true :: false :: true :: rest => .ok (.validate, rest)
  | false :: true :: true :: rest => .ok (.push, rest)
  | true :: true :: true :: rest => .ok (.phase, rest)
  | _ => .error .noCommandWord

/-- The decoder: the instruction at the front of a code of the given space, and the bits after it. -/
def decode : Format → List Bit → Except DecodeError (Instr × List Bit)
  | .cw, bits => decodeCommand bits
  | .op, bits => decodeLabel bits

/-- The operand words of a BUF command (R78). -/
def encodeBuffer (smp : List Sample) : List Bit :=
  bitsOfNat Config.COUNT_W smp.length ++ smp.flatMap fun x => bitsOfNat Config.SAMPLE_W x.toNat

/-- The code of an instruction in its own space (`Instr.format`); an ignored bit is written 0. -/
def encode : Instr → List Bit
  | .reset => [false, false, false]
  | .gate g => [g, true, false]
  | .buf smp => false :: false :: true :: encodeBuffer smp
  | .reserved => [false, true, true]
  | .sample => [false, false, false]
  | .sync => [true, false, false]
  | .rle => [false, true, false]
  | .clkrec => [true, true, false]
  | .extract => [false, false, true]
  | .validate => [true, false, true]
  | .push => [false, true, true]
  | .phase => [true, true, true]

/-- How many bits the command that starts with the number `v` has, `v` counted as the table counts (R78, R86). -/
def commandWidth (v : Nat) : Nat :=
  if v / 2 % 4 = 2 then
    3 + Config.COUNT_W + Config.SAMPLE_W * (v / 8 % 2 ^ Config.COUNT_W)
  else 3

/-- A command of the table's numbering as the port carries it: exactly the command's own bits, those from `nbits` up
being 0. -/
def tableBits (nbits w : Nat) : List Bit :=
  bitsOfNat (commandWidth (w % 2 ^ nbits)) (w % 2 ^ nbits)

/-- What the command port's decoder reads from a word numbered as spec/opcode_table.json numbers it. An operation label
never comes over the port, and its number is also a command word (R77, R79; log entry 16), so this reads commands. -/
def decodeTableWord (nbits w : Nat) : Option Instr :=
  match decode .cw (tableBits nbits w) with
  | .ok (i, _) => some i
  | .error _ => none

end Sys2Proof
end

