-- ==== Sys2Proof/Machine/Port.lean ====
section
/-! DEFINITION. Taking the next command off the command port (30_encoding.md R77, R78; 47_commands.md R170). -/

namespace Sys2Proof.Machine

/-- What the core finds on its port. -/
inductive Fetched where
  /-- Nothing has been issued. -/
  | empty
  /-- A command, and the bits issued after it. -/
  | command (i : Instr) (rest : List Bit)
  /-- The bits end inside a command. -/
  | incomplete
deriving DecidableEq, Repr

/-- The oldest command on the port; commands take effect in issue order (20_memory.md R53). -/
def fetch (port : List Bit) : Fetched :=
  match port with
  | [] => .empty
  | b :: bits =>
    match decode .cw (b :: bits) with
    | .ok (i, rest) => .command i rest
    | .error _ => .incomplete

/-- The state with the command's bits taken off the port. -/
def State.take (s : State) (rest : List Bit) : State := { s with port := rest }

/-- A step with nothing to do: "between commands nothing changes" (47_commands.md R170), and the last Result is held
nowhere (10_state.md R32). -/
def State.rest (s : State) : State := { s with result := none }

/-- The state with exactly the given bits on the port. -/
def State.withPort (s : State) (port : List Bit) : State := { s with port := port }

end Sys2Proof.Machine
end

