-- ==== Sys2Proof/Machine/Step.lean ====
section
/-! DEFINITION. One step of the core: one command of the host, atomically (20_memory.md R50, 70_reset_and_hazards.md
R233), or nothing where none has been issued. -/

namespace Sys2Proof.Machine

/-- One step. An empty port is no command: the core never acts by itself (47_commands.md R170). -/
def step (s : State) : Host.Outcome State Fault Refusal :=
  match fetch s.port with
  | .empty => .next s.rest
  | .command i rest => exec i (s.take rest)
  | .incomplete => .refused .portIncomplete

/-- The state in which the host has issued exactly the one command of the word, numbered as spec/opcode_table.json
numbers it (log entry 4). -/
def State.withFetchWord (s : State) (nbits w : Nat) : State := s.withPort (tableBits nbits w)

end Sys2Proof.Machine
end

