-- ==== Sys2Proof/Machine/Script.lean ====
section
/-! DEFINITION. The script notation of the spec (30_encoding.md R87, R88): buffer items, the pseudo-commands START and
STOP, and FRAME, the samples of an ideal line that carries nine bytes (R65). It is used to write buffers down and is no
part of the core. DESIGN CHOICE, safe (log entry 22). -/

namespace Sys2Proof.Machine

/-- The sample of a mark, -16384 (R87). -/
def markSample : Sample := BitVec.ofInt Config.SAMPLE_W (-16384)

/-- The sample of a space, +16384 (R87). -/
def spaceSample : Sample := BitVec.ofInt Config.SAMPLE_W 16384

/-- The sample of a line bit (R88). -/
def lineSample (b : Bit) : Sample := if b then markSample else spaceSample

/-- An item of a BUF line (R87). -/
inductive Item where
  /-- `M<n>`: mark samples. -/
  | m (n : Nat)
  /-- `S<n>`: space samples. -/
  | s (n : Nat)
  /-- `O<n>`: zero samples. -/
  | o (n : Nat)
  /-- `[a b c ...]`: samples written out. -/
  | lit (xs : List Int)
deriving DecidableEq, Repr

/-- The samples an item stands for (R87). -/
def itemSamples : Item → List Sample
  | .m n => List.replicate n markSample
  | .s n => List.replicate n spaceSample
  | .o n => List.replicate n 0
  | .lit xs => xs.map (BitVec.ofInt Config.SAMPLE_W)

/-- A line of a script (R87, R88). -/
inductive Line where
  | reset
  | gate (g : Bit)
  | buf (items : List Item)
  /-- `GATE 1`. -/
  | start
  /-- `GATE 0`. -/
  | stop
deriving DecidableEq, Repr

/-- The command a script line stands for (R87, R88). -/
def lineCommand : Line → Instr
  | .reset => .reset
  | .gate g => .gate g
  | .buf items => .buf (items.flatMap itemSamples)
  | .start => .gate true
  | .stop => .gate false

/-- The ten line bits of a byte: space, the data bits least significant first, mark (R65, R88). -/
def slotBits (b : Byte) : List Bit :=
  false :: (List.range Config.DATA_BITS).map (fun i => b.getLsbD i) ++ [true]

/-- The line of a frame in bit periods: idle marks, nine slots, tail marks (R65, R88). -/
def frameLine (bytes : Packet) (idle tail : Nat) : List Bit :=
  List.replicate idle true ++ bytes.toList.flatMap slotBits ++ List.replicate tail true

/-- `pos(j)`: the first sample of line bit period `j`, `j * TPB` rounded half up (R88). -/
def linePos (sr : SampleRate) (j : Nat) : Nat := (2 * j * sr.hz + Config.BAUD) / (2 * Config.BAUD)

/-- The samples of the line bits that start at bit period `j` (R88). -/
def sampleLineFrom (sr : SampleRate) (j : Nat) : List Bit → List Sample
  | [] => []
  | b :: bits => List.replicate (linePos sr (j + 1) - linePos sr j) (lineSample b) ++ sampleLineFrom sr (j + 1) bits

/-- The samples of a line at the instance's rate (R88). -/
def sampleLine (sr : SampleRate) (line : List Bit) : List Sample := sampleLineFrom sr 0 line

/-- `FRAME(b0 ... b8; idle=I; tail=T)` as the buffer of a BUF command (R88). -/
def frameBuffer (sr : SampleRate) (bytes : Packet) (idle tail : Nat) : List Sample :=
  sampleLine sr (frameLine bytes idle tail)

end Sys2Proof.Machine
end

