-- ==== Sys2Proof/Safety.lean ====
section
/-! DEFINITION. What counts as a good state, in the terms the statements use. -/

namespace Sys2Proof

open Machine

/-- Every entry of the history is a DisplayValue (10_state.md R23). -/
def HistoryOk (h : History) : Prop :=
  isDisplayValue h.s0 = true ∧ isDisplayValue h.s1 = true ∧ isDisplayValue h.s2 = true

/-- The value a running BUF command carries to the Result is a DisplayValue (10_state.md R33). -/
def StageOk : Stage → Prop
  | .atPush v => isDisplayValue v = true
  | .atPhase v => isDisplayValue v = true
  | .atReturn v _ => isDisplayValue v = true
  | .idle | .atSample _ | .atSync _ | .atRle _ _ | .atClkrec _ | .atExtract _ | .atValidate _ => True

/-- At most one phase event is set (46_phase.md R158). -/
def AtMostOneEvent (e : Events) : Prop :=
  e.zero.toNat + e.reset.toNat + e.starting.toNat + e.running.toNat + e.stopped.toNat ≤ 1

/-- A Result as the spec shapes it (30_encoding.md R80 to R82): a value exactly with the outcome Ok, that value a
DisplayValue, at most one event, and no event without a value. -/
def ResultOk (r : Result) : Prop :=
  (r.outcome = .ok ↔ r.value.isSome = true) ∧
  (∀ v, r.value = some v → isDisplayValue v = true) ∧
  AtMostOneEvent r.ev ∧
  (r.outcome ≠ .ok → r.ev = Events.none)

/-- No BUF command is running: what the host sees between commands (20_memory.md R50). -/
def BetweenCommands (s : State) : Prop := s.stage = .idle

/-- The invariant of the core between commands: the history holds DisplayValues, nothing is left of the last command
but the Result it returned, and that Result has its shape. -/
def Inv (s : State) : Prop :=
  HistoryOk s.h ∧ BetweenCommands s ∧ ∀ r, s.result = some r → ResultOk r

/-- The least count of marks that exceeds nine bit periods, `T = (3 * SR) div 400 + 1` (41_frame_sync.md R102). -/
def idleThreshold (sr : SampleRate) : Nat := 3 * sr.hz / 400 + 1

/-- Index `k` holds a space that follows at least `T` marks in a row (41_frame_sync.md R103). -/
def MarkerAt (T : Nat) (bits : List Bit) (k : Nat) : Prop :=
  T ≤ k ∧ bits[k]? = some false ∧ ∀ j, k - T ≤ j → j < k → bits[j]? = some true

/-- Neighbouring runs have different bits (42_rle.md R112). -/
def NeighboursDiffer : List Run → Prop
  | r :: q :: runs => r.bit ≠ q.bit ∧ NeighboursDiffer (q :: runs)
  | [_] => True
  | [] => True

/-- The bits a list of runs stands for (42_rle.md R112). -/
def writeOut (runs : List Run) : List Bit := runs.flatMap fun r => List.replicate r.len r.bit

/-- The stream positions EXTRACT reads: `STREAM[1 + 10*k + i]` for `k` in 0..8 and `i` in 0..7 (30_encoding.md R63). -/
def ReadPosition (j : Nat) : Prop := ∃ k i, k < 9 ∧ i < 8 ∧ j = 1 + 10 * k + i

/-- The six bytes of a Packet from offset `o` on are all ASCII digits (45_digit_validate.md R141). -/
def DigitsFrom (p : Packet) (o : Nat) : Prop := ∀ j, j < 6 → ∃ b, p[o + j]? = some b ∧ 48 ≤ b.toNat ∧ b.toNat ≤ 57

/-- At this rate an ideal line is recovered bit for bit: a bit period is one sample, or at least two (30_encoding.md R88,
43_clock_recovery.md R122). -/
def RateRecovers (sr : SampleRate) : Prop := sr.hz = 1200 ∨ 2400 ≤ sr.hz

/-- The value a BUF command reported. -/
def reported (s : State) : Option DisplayValue := s.result.bind Result.value

end Sys2Proof
end

