-- ==== Sys2Proof/Certificates/Slice0/Obligations.lean ====
section
/-! DEFINITION. The statements for the provers. Each docstring names the rule of spec/ it formalises; where a clause
rests on a decision the spec marks as its own (92_eei_decisions.md D<n>) or on an inference it marks "derived", the
docstring says so. -/

open Sys2Proof Sys2Proof.Machine

/-! ## Reset and the host's commands -/

/-- 10_state.md R30, 70_reset_and_hazards.md R220, 30_encoding.md R75: whatever the sample rate of the instance, reset
leaves `H = [Z, Z, Z]` with `Z = 0x303030303030`, the gate closed and the rate as built. The gate's value is the spec's
decision D7 (log entry 6); the idle stage, the empty Result and the empty port are the model's (log entries 1, 2, 4). -/
def Obligations.ResetStateValues : Prop :=
  ∀ sr : SampleRate,
    (State.resetAt sr).h = ⟨0x303030303030#48, 0x303030303030#48, 0x303030303030#48⟩ ∧
    (State.resetAt sr).g = false ∧ (State.resetAt sr).tpbQ = sr ∧ (State.resetAt sr).stage = .idle ∧
    (State.resetAt sr).result = none ∧ (State.resetAt sr).port = [] ∧
    State.reset = State.resetAt State.reset.tpbQ

/-- 10_state.md R23 and R33 at reset: the invariant of the core holds of every instance just built (the gate, which `Inv`
does not speak of, and the missing Result are in `ResetStateValues`). -/
def Obligations.ResetMeetsInvariant : Prop := ∀ sr : SampleRate, Inv (State.resetAt sr)

/-- 47_commands.md R171 and 70_reset_and_hazards.md R221 (decisions D7, D14): RESET leaves `H = [Z, Z, Z]`, `G = 0` and no
Result, does not touch `SR`, and leaves the commands behind it on the port; and it does to `H` and `G` what power-on
reset does. That a stage other than idle ends too is the model's (log entry 1). Its command words are 000 and 001, `CW[0]`
being ignored: decisions D8 and D19, with the model's bit order (log entries 3 and 14). -/
def Obligations.ResetCommandEffect : Prop :=
  (∀ s : State, exec .reset s =
    .next { h := ⟨Z, Z, Z⟩, g := false, tpbQ := s.tpbQ, stage := .idle, result := none, port := s.port }) ∧
  (∀ s : State, ∃ t, exec .reset s = .next t ∧ t.h = (State.resetAt s.tpbQ).h ∧ t.g = (State.resetAt s.tpbQ).g) ∧
  (∀ (ignored : Bit) (rest : List Bit), decode .cw (ignored :: false :: false :: rest) = .ok (.reset, rest))

/-- 47_commands.md R172: GATE writes `G` and nothing else, and returns no Result. The second clause, the command word, rests
on decision D8 (30_encoding.md R77, log entry 14) and on the model's bit order (log entry 3). -/
def Obligations.GateCommandEffect : Prop :=
  (∀ (g : Bit) (s : State), exec (.gate g) s =
    .next { h := s.h, g := g, tpbQ := s.tpbQ, stage := s.stage, result := none, port := s.port }) ∧
  (∀ (g : Bit) (rest : List Bit), decode .cw (g :: true :: false :: rest) = .ok (.gate g, rest))

/-- 30_encoding.md R85 (decision D19, log entry 15): the reserved command opcode is refused in every state, and both its
words decode to it. -/
def Obligations.ReservedCommandRefused : Prop :=
  (∀ s : State, exec .reserved s = .refused .reservedCommand) ∧
  (∀ (ignored : Bit) (rest : List Bit), decode .cw (ignored :: true :: true :: rest) = .ok (.reserved, rest))

/-! ## The BUF command -/

/-- 47_commands.md R175 and 60_exceptions.md R194 (decision D18): with the gate closed a BUF command reads nothing of its
buffer, changes nothing and returns Gated. -/
def Obligations.BufSkippedWhenGateClosed : Prop :=
  ∀ (smp : List Sample) (s : State), s.g = false → exec (.buf smp) s =
    .next { h := s.h, g := s.g, tpbQ := s.tpbQ, stage := .idle, result := some ⟨.gated, Events.none, none⟩,
            port := s.port }

/-- 47_commands.md R174: with the gate open a BUF command runs the eight operations in the wired order, each on what its
predecessor made, and ends at the first miss. `H` is written on the last path only, and nothing else of the state but
the returned Result changes. The slice given to RLE is decision D5, the rounding decision D3. -/
def Obligations.BufRunsPipeline : Prop :=
  ∀ (smp : List Sample) (s : State), s.g = true → exec (.buf smp) s = .next
    (match syncStart s.tpbQ (sampleAll smp) with
     | none => { s with stage := .idle, result := some ⟨.noSync, Events.none, none⟩ }
     | some i =>
       match extractPacket (recoverClock s.tpbQ (rleRuns ((sampleAll smp).drop i))) with
       | none => { s with stage := .idle, result := some ⟨.truncated, Events.none, none⟩ }
       | some p =>
         match validatePacket p with
         | none => { s with stage := .idle, result := some ⟨.noDigitMatch, Events.none, none⟩ }
         | some v =>
           { s with
             h := ⟨v, s.h.s0, s.h.s1⟩, stage := .idle,
             result := some ⟨.ok, phaseEvents ⟨v, s.h.s0, s.h.s1⟩, some v⟩ })

/-- 60_exceptions.md R197 ("The three commands cannot fail"), 20_memory.md R50: in every state RESET, GATE and BUF answer
a next state; a BUF leaves no BUF running and returns a Result, RESET and GATE return none. -/
def Obligations.CommandsAlwaysComplete : Prop :=
  (∀ s : State, ∃ t, exec .reset s = .next t ∧ t.result = none) ∧
  (∀ (g : Bit) (s : State), ∃ t, exec (.gate g) s = .next t ∧ t.result = none) ∧
  (∀ (smp : List Sample) (s : State), ∃ t r, exec (.buf smp) s = .next t ∧ BetweenCommands t ∧ t.result = some r)

/-- 47_commands.md R177 (derived): the effect of a BUF command on the state by outcome, with 60_exceptions.md R195 for
what a miss records and 46_phase.md R158 for the events. -/
def Obligations.BufOutcomeTable : Prop :=
  ∀ (smp : List Sample) (s t : State), exec (.buf smp) s = .next t →
    t.g = s.g ∧ t.tpbQ = s.tpbQ ∧ t.port = s.port ∧
    ∃ r, t.result = some r ∧
      (r.outcome = .gated ↔ s.g = false) ∧
      (r.outcome ≠ .ok → t.h = s.h ∧ r.ev = Events.none ∧ r.value = none) ∧
      (r.outcome = .ok → ∃ v, r.value = some v ∧ t.h = ⟨v, s.h.s0, s.h.s1⟩ ∧ r.ev = phaseEvents t.h ∧
        AtMostOneEvent r.ev)

/-- 47_commands.md R176, 60_exceptions.md R200: a BUF command tries its exits in the order Gated, NoSync, Truncated,
NoDigitMatch, Ok, and its outcome is the first that applies. The outcome Gated is decision D18 (log entry 14), the slice
`BITS[i..]` the spec's inference D5 (log entry 11) and the rounding inside `recoverClock` decision D3 (log entry 9). -/
def Obligations.BufExitOrder : Prop :=
  ∀ (smp : List Sample) (s t : State) (r : Result), exec (.buf smp) s = .next t → t.result = some r →
    (r.outcome = .gated ↔ s.g = false) ∧
    (r.outcome = .noSync ↔ s.g = true ∧ syncStart s.tpbQ (sampleAll smp) = none) ∧
    (r.outcome = .truncated ↔ s.g = true ∧ ∃ i, syncStart s.tpbQ (sampleAll smp) = some i ∧
      extractPacket (recoverClock s.tpbQ (rleRuns ((sampleAll smp).drop i))) = none) ∧
    (r.outcome = .noDigitMatch ↔ s.g = true ∧ ∃ i p, syncStart s.tpbQ (sampleAll smp) = some i ∧
      extractPacket (recoverClock s.tpbQ (rleRuns ((sampleAll smp).drop i))) = some p ∧ validatePacket p = none) ∧
    (r.outcome = .ok ↔ s.g = true ∧ ∃ i p v, syncStart s.tpbQ (sampleAll smp) = some i ∧
      extractPacket (recoverClock s.tpbQ (rleRuns ((sampleAll smp).drop i))) = some p ∧ validatePacket p = some v)

/-- 47_commands.md R178 (derived): the outcome and the value of a BUF command depend on the gate, the rate and the samples
alone, and with the same history the whole Result and the next history are the same. -/
def Obligations.BufDependsOnBufferOnly : Prop :=
  ∀ (smp : List Sample) (s s' t t' : State) (r r' : Result), s.g = s'.g → s.tpbQ = s'.tpbQ →
    exec (.buf smp) s = .next t → exec (.buf smp) s' = .next t' → t.result = some r → t'.result = some r' →
    r.outcome = r'.outcome ∧ r.value = r'.value ∧ (s.h = s'.h → r = r' ∧ t.h = t'.h)

/-- 60_exceptions.md R202: after a miss or a skip the next command runs as if the miss had not happened. -/
def Obligations.MissLeavesNoTrace : Prop :=
  ∀ (smp : List Sample) (s t : State) (r : Result), BetweenCommands s →
    exec (.buf smp) s = .next t → t.result = some r → r.outcome ≠ .ok →
    ∀ i : Instr, i.format = .cw → exec i t = exec i s

/-- 47_commands.md R179 and 60_exceptions.md R199: a BUF command raises no notification on a miss or a skip, and one or
two when it decodes a value. -/
def Obligations.NotificationCounts : Prop :=
  ∀ (smp : List Sample) (s t : State) (r : Result), exec (.buf smp) s = .next t → t.result = some r →
    (r.outcome = .ok → notificationCount r = 1 ∨ notificationCount r = 2) ∧
    (r.outcome ≠ .ok → notificationCount r = 0)

/-! ## SAMPLE and SYNC -/

/-- 40_bit_sampler.md R95: SAMPLE is applied to every sample of the buffer in index order, and gives as many bits, bit `i`
being 1 exactly when sample `i` is below zero. Nothing else of the state changes. -/
def Obligations.SampleOperation : Prop :=
  ∀ (s : State) (smp : List Sample), s.stage = .atSample smp →
    ∃ bits : List Bit, exec .sample s = .next { s with stage := .atSync bits } ∧ bits.length = smp.length ∧
      ∀ (i : Nat) (x : Sample), smp[i]? = some x → bits[i]? = some (decide (x.toInt < 0))

/-- 40_bit_sampler.md R90 and R95, SAMPLE's completion as one equation: in every state where a BUF command has its buffer
and SAMPLE is next, SAMPLE answers a next state, in which `BITS` is, sample by sample, whether it is below zero, and
nothing else has changed; a BUF command that has just begun is such a state. -/
def Obligations.SampleCompletes : Prop :=
  (∀ (s : State) (smp : List Sample), s.stage = .atSample smp →
    exec .sample s = .next { s with stage := .atSync (smp.map fun x => decide (x.toInt < 0)) }) ∧
  (∀ (s : State) (smp : List Sample), ∃ t, exec .sample (s.openBuf smp) = .next t ∧
    t.stage = .atSync (smp.map fun x => decide (x.toInt < 0)) ∧ t.h = s.h ∧ t.g = s.g)

/-- 40_bit_sampler.md R90 to R92 (the integer format is decision D1): the bit of a sample is its top bit, it is 1 exactly
below zero, and a zero sample gives 0 (flagged by the spec as U1, log entry 8). -/
def Obligations.SampleBitIsTopBit : Prop :=
  ∀ x : Sample, sampleBit x = x.getLsbD 15 ∧ (sampleBit x = true ↔ x.toInt < 0) ∧ sampleBit 0 = false

/-- 41_frame_sync.md R100 and R104, 60_exceptions.md R191: SYNC hands the frame start on, and where it finds none the BUF
command ends with NoSync and changes nothing else. -/
def Obligations.SyncOperation : Prop :=
  ∀ (s : State) (bits : List Bit), s.stage = .atSync bits →
    (∀ i, syncStart s.tpbQ bits = some i → exec .sync s = .next { s with stage := .atRle bits i }) ∧
    (syncStart s.tpbQ bits = none →
      exec .sync s = .next { s with stage := .idle, result := some ⟨.noSync, Events.none, none⟩ })

/-- 41_frame_sync.md R102 (decision D4): the idle test is `400 * c > 3 * SR`, and `T` is the least count that passes it. -/
def Obligations.IdleTestIsExact : Prop :=
  ∀ (sr : SampleRate) (c : Nat),
    (exceeds sr c = true ↔ 400 * c > 3 * sr.hz) ∧ (exceeds sr c = true ↔ idleThreshold sr ≤ c)

/-- 41_frame_sync.md R103 (derived) and R104: SYNC finds the least index with a space after `T` marks in a row, and finds
none exactly where there is no such index. -/
def Obligations.SyncFindsFirstMarker : Prop :=
  ∀ (sr : SampleRate) (bits : List Bit),
    (∀ k, syncStart sr bits = some k ↔
      MarkerAt (idleThreshold sr) bits k ∧ ∀ j, j < k → ¬ MarkerAt (idleThreshold sr) bits j) ∧
    (syncStart sr bits = none ↔ ∀ k, ¬ MarkerAt (idleThreshold sr) bits k)

/-- 41_frame_sync.md R106 (derived): only the first frame start counts; what follows it in the buffer, a second idle
period included, does not change it. -/
def Obligations.SyncIgnoresLaterBits : Prop :=
  ∀ (sr : SampleRate) (bits more : List Bit) (k : Nat), syncStart sr bits = some k →
    syncStart sr (bits ++ more) = some k

/-- 41_frame_sync.md R106 (derived), 60_exceptions.md R191: a buffer with no sample below zero, the empty buffer included,
never synchronizes, at any rate. -/
def Obligations.SilenceNeverSynchronizes : Prop :=
  ∀ (smp : List Sample) (s : State), s.g = true → (∀ x ∈ smp, ¬ x.toInt < 0) →
    exec (.buf smp) s = .next { s with stage := .idle, result := some ⟨.noSync, Events.none, none⟩ }

/-! ## RLE and CLKREC -/

/-- 42_rle.md R110 and R113 (decision D5): RLE compresses the bits from the frame start to the end of the buffer. -/
def Obligations.RleOperation : Prop :=
  ∀ (s : State) (bits : List Bit) (i : Nat), s.stage = .atRle bits i →
    exec .rle s = .next { s with stage := .atClkrec (rleRuns (bits.drop i)) }

/-- 42_rle.md R111: the algorithm's step, taken at the end of the sequence: a bit equal to the last run's bit makes that
run one longer, any other bit starts a new run of length 1. -/
def Obligations.RleMergesOrStartsRun : Prop :=
  rleRuns [] = [] ∧
  ∀ (X : List Bit) (b : Bit),
    (∀ r, (rleRuns X).getLast? = some r → r.bit = b →
      rleRuns (X ++ [b]) = (rleRuns X).dropLast ++ [⟨r.bit, r.len + 1, Nat.succ_pos _⟩]) ∧
    ((∀ r, (rleRuns X).getLast? = some r → r.bit ≠ b) →
      rleRuns (X ++ [b]) = rleRuns X ++ [⟨b, 1, Nat.one_pos⟩])

/-- 42_rle.md R112 (derived): lengths at least 1, neighbours different, lengths adding up to the input's, the first run
with the first bit, and the runs written out giving the input back; and no other list of runs does all that. -/
def Obligations.RleRunsAreMaximal : Prop :=
  ∀ X : List Bit,
    (∀ r ∈ rleRuns X, 1 ≤ r.len) ∧ NeighboursDiffer (rleRuns X) ∧
    ((rleRuns X).map Run.len).sum = X.length ∧ (rleRuns X).head?.map Run.bit = X.head? ∧
    writeOut (rleRuns X) = X ∧
    ∀ runs : List Run, NeighboursDiffer runs → writeOut runs = X → runs = rleRuns X

/-- 42_rle.md R114 (derived): from a frame start on there is a first run and it is a run of spaces. -/
def Obligations.RecoveredRunsStartWithSpace : Prop :=
  ∀ (sr : SampleRate) (bits : List Bit) (i : Nat), syncStart sr bits = some i →
    i < bits.length ∧ ∃ r runs, rleRuns (bits.drop i) = r :: runs ∧ r.bit = false

/-- 43_clock_recovery.md R120 and R121: CLKREC replaces every run by `reps(L)` copies of its bit, joined in order. The
value of `reps` is `RepsRoundsToNearest` (decision D3). -/
def Obligations.ClkrecOperation : Prop :=
  ∀ (s : State) (runs : List Run), s.stage = .atClkrec runs →
    exec .clkrec s =
      .next { s with stage := .atExtract (runs.flatMap fun r => List.replicate (reps s.tpbQ r.len) r.bit) }

/-- 43_clock_recovery.md R122 (decisions D3, D4): `reps(L)` is `(2400*L + SR) div (2*SR)`, the `n` with
`(2n-1)*SR <= 2400*L < (2n+1)*SR`. That an exact half goes up is the spec's choice (log entry 9); under either tie rule
the count is a nearest integer, and the two rules agree where `L` is no exact half. -/
def Obligations.RepsRoundsToNearest : Prop :=
  ∀ (sr : SampleRate) (len : Nat),
    reps sr len = (2400 * len + sr.hz) / (2 * sr.hz) ∧
    (∀ n, reps sr len = n ↔ 2 * n * sr.hz ≤ 2400 * len + sr.hz ∧ 2400 * len < (2 * n + 1) * sr.hz) ∧
    (∀ (tie : Config.TieRule) (n : Nat), repsTie tie sr len = n →
      2 * n * sr.hz ≤ 2400 * len + sr.hz ∧ 2400 * len ≤ (2 * n + 1) * sr.hz) ∧
    ((∀ n, 2400 * len ≠ (2 * n + 1) * sr.hz) → repsTie .up sr len = repsTie .down sr len)

/-- 43_clock_recovery.md R123 (derived): a run vanishes exactly when it is shorter than half a bit period, and its
neighbours are then joined without being merged. That a run of exactly half a bit period, `2400 * L = SR`, counts 1 and
does not vanish is the tie rule, decision D3 (log entry 9). -/
def Obligations.ShortRunVanishes : Prop :=
  ∀ (sr : SampleRate) (r : Run),
    (reps sr r.len = 0 ↔ 2400 * r.len < sr.hz) ∧
    (2400 * r.len < sr.hz → ∀ before after : List Run,
      recoverClock sr (before ++ r :: after) = recoverClock sr before ++ recoverClock sr after)

/-- 43_clock_recovery.md R124: each run is rounded alone; nothing of one run reaches the bits of another. -/
def Obligations.RunsRoundedAlone : Prop :=
  ∀ (sr : SampleRate) (before after : List Run) (r : Run),
    recoverClock sr (before ++ r :: after) =
      recoverClock sr before ++ recoverClock sr [r] ++ recoverClock sr after ∧
    ∃ n, recoverClock sr [r] = List.replicate n r.bit

/-- 43_clock_recovery.md R125: with `TPB = 1` compression followed by expansion gives every bit sequence back. -/
def Obligations.RoundTripAtUnitRate : Prop :=
  ∀ sr : SampleRate, sr.hz = 1200 → (∀ len, reps sr len = len) ∧ ∀ X : List Bit, recoverClock sr (rleRuns X) = X

/-! ## EXTRACT and VALIDATE -/

/-- 44_byte_extract.md R132: a stream of fewer than 89 bits (88 after the dropped one) has no Packet, and the command ends
with Truncated and changes nothing else; any longer stream has one. -/
def Obligations.ExtractTruncation : Prop :=
  ∀ (s : State) (stream : List Bit), s.stage = .atExtract stream →
    ((stream.drop 1).length < 88 ↔ stream.length < 89) ∧
    (stream.length < 89 →
      exec .extract s = .next { s with stage := .idle, result := some ⟨.truncated, Events.none, none⟩ }) ∧
    (89 ≤ stream.length → ∃ p : Packet, exec .extract s = .next { s with stage := .atValidate p })

/-- 44_byte_extract.md R131 with R130: byte `k` is the sum of its eight bits at offsets `10k` to `10k + 7` of the stream
less its first bit, the first weighing 1. -/
def Obligations.ExtractBytes : Prop :=
  ∀ (s : State) (stream : List Bit), s.stage = .atExtract stream → 89 ≤ stream.length →
    ∃ p : Packet, exec .extract s = .next { s with stage := .atValidate p } ∧
      ∀ (k : Nat) (hk : k < 9),
        p[k].toNat =
          ((stream.drop 1).getD (10 * k) false).toNat + 2 * ((stream.drop 1).getD (10 * k + 1) false).toNat +
          4 * ((stream.drop 1).getD (10 * k + 2) false).toNat + 8 * ((stream.drop 1).getD (10 * k + 3) false).toNat +
          16 * ((stream.drop 1).getD (10 * k + 4) false).toNat + 32 * ((stream.drop 1).getD (10 * k + 5) false).toNat +
          64 * ((stream.drop 1).getD (10 * k + 6) false).toNat + 128 * ((stream.drop 1).getD (10 * k + 7) false).toNat

/-- 44_byte_extract.md R133 and R130 (derived): two streams long enough that agree where data bits stand have the same
Packet, whatever their first bit, their framing positions and everything from offset 88 on hold. -/
def Obligations.ExtractIgnoresFraming : Prop :=
  ∀ stream stream' : List Bit, 89 ≤ stream.length → 89 ≤ stream'.length →
    (∀ j, ReadPosition j → stream[j]? = stream'[j]?) → extractPacket stream = extractPacket stream'

/-- 45_digit_validate.md R141: the first of the offsets 0 to 3 whose six bytes are all in 48 to 57 is taken, and its bytes
are the characters of the value, in window order. The place of a character in the register is decision D10. -/
def Obligations.ValidateTakesFirstWindow : Prop :=
  ∀ (s : State) (p : Packet) (o : Nat), s.stage = .atValidate p → o ≤ 3 → DigitsFrom p o →
    (∀ o', o' < o → ¬ DigitsFrom p o') →
    ∃ v : DisplayValue, exec .validate s = .next { s with stage := .atPush v } ∧
      ∀ j, j < 6 → p[o + j]? = some (charAt v j)

/-- 45_digit_validate.md R143: where no offset has six digits the command ends with NoDigitMatch and changes nothing
else. -/
def Obligations.ValidateNoMatch : Prop :=
  ∀ (s : State) (p : Packet), s.stage = .atValidate p → (∀ o, o ≤ 3 → ¬ DigitsFrom p o) →
    exec .validate s = .next { s with stage := .idle, result := some ⟨.noDigitMatch, Events.none, none⟩ }

/-- 30_encoding.md R74 (decision D10): the register of a window holds its byte `j` as character `j`, the first in bits 47 to
40, and two registers with the same six characters are equal. -/
def Obligations.DisplayLayout : Prop :=
  (∀ (w : Window) (j : Nat) (hj : j < 6), charAt (displayOf w) j = w[j]) ∧
  (∀ v : DisplayValue, charAt v 0 = v.extractLsb' 40 8 ∧ charAt v 5 = v.extractLsb' 0 8) ∧
  (∀ v v' : DisplayValue, (∀ j, j < 6 → charAt v j = charAt v' j) → v = v')

/-- 45_digit_validate.md R145 and 10_state.md R23 (derived): VALIDATE gives no value but six digit characters. -/
def Obligations.ValidateYieldsDigits : Prop :=
  ∀ (p : Packet) (v : DisplayValue), validatePacket p = some v → isDisplayValue v = true

/-! ## PUSH and PHASE -/

/-- 46_phase.md R150: PUSH shifts the value in; all three writes take the old values, the oldest entry is lost and nothing
else of the state changes. The second clause, that PUSH is operation 6, rests on decision D8 (30_encoding.md R79, log entry
16) and on the model's bit order (log entry 3). -/
def Obligations.PushOperation : Prop :=
  (∀ (s : State) (v : DisplayValue), s.stage = .atPush v →
    exec .push s = .next { s with h := ⟨v, s.h.s0, s.h.s1⟩, stage := .atPhase v }) ∧
  encode .push = bitsOfNat 3 6

/-- 46_phase.md R152 to R156: PHASE gives one bit for each predicate of `H`, and changes nothing else. -/
def Obligations.PhaseOperation : Prop :=
  ∀ (s : State) (v : DisplayValue), s.stage = .atPhase v →
    ∃ ev : Events, exec .phase s = .next { s with stage := .atReturn v ev } ∧
      (ev.zero = true ↔ s.h.s0 = Z ∧ s.h.s1 = Z ∧ s.h.s2 = Z) ∧
      (ev.reset = true ↔ s.h.s0 = Z ∧ s.h.s1 ≠ Z) ∧
      (ev.starting = true ↔ s.h.s0 ≠ Z ∧ s.h.s1 = Z) ∧
      (ev.running = true ↔ s.h.s0 ≠ Z ∧ s.h.s1 ≠ Z ∧ s.h.s0 ≠ s.h.s1) ∧
      (ev.stopped = true ↔ s.h.s0 = s.h.s1 ∧ s.h.s1 = s.h.s2 ∧ s.h.s0 ≠ Z)

/-- 46_phase.md R158 (derived): at most one predicate holds, of any three 48-bit values whatever. -/
def Obligations.PhasesAreExclusive : Prop := ∀ h : History, AtMostOneEvent (phaseEvents h)

/-- 46_phase.md R159 (derived): the two classes of quiet stacks, and no other, satisfy no predicate. -/
def Obligations.QuietStacks : Prop :=
  ∀ h : History, phaseEvents h = Events.none ↔
    (h.s0 = Z ∧ h.s1 = Z ∧ h.s2 ≠ Z) ∨ (h.s0 ≠ Z ∧ h.s1 = h.s0 ∧ h.s2 ≠ h.s1)

/-- 46_phase.md R160 (derived): the five bits as one lookup table of five comparisons; bits as `30_encoding.md` R82 numbers
them. -/
def Obligations.PhaseLookupTable : Prop :=
  ∀ h : History, eventBits (phaseEvents h) =
    (if h.s0 = Z then
       if h.s1 = Z then (if h.s2 = Z then 0b00001#5 else 0b00000#5) else 0b00010#5
     else if h.s1 = Z then 0b00100#5
     else if h.s0 ≠ h.s1 then 0b01000#5
     else if h.s1 = h.s2 then 0b10000#5 else 0b00000#5)

/-- 46_phase.md R161: the events are levels. Where the three entries are equal and a BUF command decodes that value once
more, the history stays as it is and the event fires again: Zero for `Z`, Stopped for any other value. -/
def Obligations.EventsAreLevels : Prop :=
  ∀ (smp : List Sample) (s t : State) (r : Result) (v : DisplayValue), s.h = ⟨v, v, v⟩ →
    exec (.buf smp) s = .next t → t.result = some r → r.value = some v →
    t.h = s.h ∧ (v = Z → r.ev.zero = true) ∧ (v ≠ Z → r.ev.stopped = true)

/-- 70_reset_and_hazards.md R224 (derived): the first value decoded after reset gives Zero alone if it is `Z`, and Starting
alone if it is not. -/
def Obligations.FirstEventAfterReset : Prop :=
  ∀ (sr : SampleRate) (smp : List Sample) (s t : State) (r : Result) (v : DisplayValue),
    exec (.gate true) (State.resetAt sr) = .next s → exec (.buf smp) s = .next t → t.result = some r →
    r.value = some v →
    r.ev = ⟨decide (v = Z), false, decide (v ≠ Z), false, false⟩

/-- 46_phase.md R162 (derived), its first sentence's reason: three BUF commands that decode `x2`, `x1`, `x0` in that order
leave `H = [x0, x1, x2]`, whatever it was. -/
def Obligations.ThreeValuesFillHistory : Prop :=
  ∀ (a b c : List Sample) (s t1 t2 t3 : State) (x0 x1 x2 : DisplayValue),
    exec (.buf a) s = .next t1 → reported t1 = some x2 →
    exec (.buf b) t1 = .next t2 → reported t2 = some x1 →
    exec (.buf c) t2 = .next t3 → reported t3 = some x0 →
    t3.h = ⟨x0, x1, x2⟩

/-! ## Frames on an ideal line -/

/-- 30_encoding.md R65 and R88, the source's first testable property (95_test_vectors.md X1 and its law 6): on an ideal
line, with at least 10 idle bit periods and the frame whole in the buffer, SYNC finds the frame, EXTRACT recovers exactly
the nine bytes that were sent, and the BUF command's Result is what VALIDATE makes of them. It is stated for 1200 samples
a second and for every rate from 2400 up, whole bit periods or not; of the rates 1 to 1199 and 1201 to 2399, where a run
of the sampled line can be half a bit period off or a bit period can have no sample, it says nothing. FRAME is the spec's
notation (decision D21, log entry 22); the slice is D5 (log entry 11), the rounding D3 (log entry 9). -/
def Obligations.FrameOnIdealLineDecodes : Prop :=
  ∀ (bytes : Packet) (idle tail : Nat) (s : State), RateRecovers s.tpbQ → 10 ≤ idle → s.g = true →
    (∃ i, syncStart s.tpbQ (sampleAll (frameBuffer s.tpbQ bytes idle tail)) = some i ∧
      extractPacket (recoverClock s.tpbQ (rleRuns ((sampleAll (frameBuffer s.tpbQ bytes idle tail)).drop i))) =
        some bytes) ∧
    exec (.buf (frameBuffer s.tpbQ bytes idle tail)) s = .next
      (match validatePacket bytes with
       | none => { s with stage := .idle, result := some ⟨.noDigitMatch, Events.none, none⟩ }
       | some v =>
         { s with
           h := ⟨v, s.h.s0, s.h.s1⟩, stage := .idle,
           result := some ⟨.ok, phaseEvents ⟨v, s.h.s0, s.h.s1⟩, some v⟩ })

/-- 46_phase.md R162 (derived): every stack of three DisplayValues is reached from reset by `GATE 1` and three BUF
commands, at any rate at which an ideal line is recovered. -/
def Obligations.EveryHistoryReachable : Prop :=
  ∀ (sr : SampleRate) (h : History), RateRecovers sr → HistoryOk h →
    ∃ (a b c : List Sample) (t0 t1 t2 t3 : State),
      exec (.gate true) (State.resetAt sr) = .next t0 ∧ exec (.buf a) t0 = .next t1 ∧
      exec (.buf b) t1 = .next t2 ∧ exec (.buf c) t2 = .next t3 ∧ t3.h = h

/-! ## The whole machine -/

/-- When the bits on the port decode to an instruction, a step takes them off the port and is that instruction's meaning
(47_commands.md R170, 70_reset_and_hazards.md R233; the port is the model's, log entry 3). -/
def Obligations.StepRunsDecodedCommand : Prop :=
  ∀ (s : State) (i : Instr) (rest : List Bit), decode .cw s.port = .ok (i, rest) →
    step s = exec i { s with port := rest }

/-- 47_commands.md R170: the core never acts by itself. With nothing issued a step changes nothing and returns no Result
(the idle step is the model's, log entry 4). -/
def Obligations.StepWithoutCommandIsIdle : Prop :=
  ∀ s : State, s.port = [] → step s = .next { s with result := none }

/-- 10_state.md R23, R27, R33 and 30_encoding.md R80 to R82 as an invariant of the step: from every state that meets it,
whatever is on the port, a step that answers a next state answers one that meets it. -/
def Obligations.StepKeepsInvariant : Prop := ∀ s t : State, Inv s → step s = .next t → Inv t

/-- 10_state.md R23 instruction by instruction, in every stage of a BUF command: the history, and the value on its way to
the Result, stay six digit characters each. -/
def Obligations.EveryInstructionKeepsDigits : Prop :=
  ∀ (i : Instr) (s t : State), HistoryOk s.h → StageOk s.stage → exec i s = .next t →
    HistoryOk t.h ∧ StageOk t.stage

/-- 10_state.md R22, R24, R29 as frames over all instructions: nothing writes the rate or the commands still on the port;
only RESET and GATE write the gate; only RESET, PUSH and a BUF that decoded a value write the history; the six
operations before PUSH, PHASE, GATE and every other BUF leave it as it was. -/
def Obligations.OnlyNamedWriters : Prop :=
  ∀ (i : Instr) (s t : State), exec i s = .next t →
    t.tpbQ = s.tpbQ ∧ t.port = s.port ∧
    (i ≠ .reset → (∀ g, i ≠ .gate g) → t.g = s.g) ∧
    (i ≠ .reset → i ≠ .push → (∀ smp, i = .buf smp → reported t = none) → t.h = s.h)

/-- 10_state.md R32 (decision D16): the core holds no Result. A step does not depend on the Result of the step before it. -/
def Obligations.ResultIsNeverRead : Prop :=
  ∀ (s : State) (r : Option Result), step { s with result := r } = step s

/-- 60_exceptions.md R197 and R190: no step ends in a fault, in any state whatever; the operations inside a BUF command
always find the stage they need. -/
def Obligations.StepNeverFaults : Prop := ∀ (s : State) (f : Fault), step s ≠ .fault f

/-- 60_exceptions.md R197, 30_encoding.md R85: a step is refused for the reserved command opcode, or for bits that end
inside a command (the model's, log entry 18), and for nothing else. -/
def Obligations.StepRefusals : Prop :=
  ∀ (s : State) (r : Refusal), step s = .refused r →
    (r = .reservedCommand ∧ ∃ rest, decode .cw s.port = .ok (.reserved, rest)) ∨
    (r = .portIncomplete ∧ s.port ≠ [] ∧ ∃ e, decode .cw s.port = .error e)

/-- 30_encoding.md R79, 10_state.md R27: outside a BUF command an operation label stops by name in every one of the eight
cases; its inputs do not exist there (log entry 17). -/
def Obligations.OperationsOnlyInsideBuf : Prop :=
  ∀ (i : Instr) (s : State), i.format = .op → s.stage = .idle → ∃ name, exec i s = .fault (.outOfOrder name)

/-! ## Encodings -/

/-- 30_encoding.md R77, R78, R79, R85, R86: decoding the code of any instruction that has one gives the instruction back, with
every operand at every value, and leaves exactly what follows. -/
def Obligations.DecodeAfterEncode : Prop :=
  ∀ (i : Instr) (rest : List Bit), i.wellFormed = true → decode i.format (encode i ++ rest) = .ok (i, rest)

/-- 30_encoding.md R77, R78 and R85 (b) (decisions D8, D19; bit order log entry 3, codes log entry 14): `CW[0]` of BUF is
ignored. Both words 10x, followed by the operand words of any buffer whose length fits the word `N`, decode to that BUF
and leave exactly what follows. -/
def Obligations.BufOperandBitIgnored : Prop :=
  ∀ (ignored : Bit) (smp : List Sample) (rest : List Bit), lengthFits smp = true →
    decode .cw (ignored :: false :: true :: (encodeBuffer smp ++ rest)) = .ok (.buf smp, rest)

/-- 30_encoding.md R77, R79 and R85 (decisions D8, D19), words written out: bits from `CW[0]` up, so the word 011 is
`[1, 1, 0]` (log entry 3). Each of the eight command words and three labels. -/
def Obligations.WordsDecodeAsTabled : Prop :=
  decode .cw [false, false, false] = .ok (.reset, []) ∧
  decode .cw [true, false, false] = .ok (.reset, []) ∧
  decode .cw [false, true, false] = .ok (.gate false, []) ∧
  decode .cw [true, true, false] = .ok (.gate true, []) ∧
  decode .cw ([false, false, true] ++ List.replicate 32 false) = .ok (.buf [], []) ∧
  decode .cw ([true, false, true] ++ List.replicate 32 false) = .ok (.buf [], []) ∧
  decode .cw [false, true, true] = .ok (.reserved, []) ∧
  decode .cw [true, true, true] = .ok (.reserved, []) ∧
  decode .op [true, false, false] = .ok (.sync, []) ∧
  decode .op [false, true, true] = .ok (.push, []) ∧
  decode .op [true, true, true] = .ok (.phase, [])

/-- 30_encoding.md R80 to R82 (decision D9): where each field of a Result stands in the packed record; VALUE is zero where
there is none, and the outcome codes 5 to 7 are never produced. -/
def Obligations.ResultRecordLayout : Prop :=
  ∀ r : Result,
    (packResult r).extractLsb' 54 3 = outcomeCode r.outcome ∧ (outcomeCode r.outcome).toNat ≤ 4 ∧
    (packResult r).getLsbD 49 = r.ev.zero ∧ (packResult r).getLsbD 50 = r.ev.reset ∧
    (packResult r).getLsbD 51 = r.ev.starting ∧ (packResult r).getLsbD 52 = r.ev.running ∧
    (packResult r).getLsbD 53 = r.ev.stopped ∧
    (packResult r).getLsbD 48 = r.value.isSome ∧
    (∀ v, r.value = some v → (packResult r).extractLsb' 0 48 = v) ∧
    (r.value = none → (packResult r).extractLsb' 0 48 = 0)
end

