-- ==== Sys2Proof/Laws/Decode.lean ====
section
/-! SUPPORT. Laws of the bit words the flat encoding is made of. -/

namespace Sys2Proof

@[simp] theorem length_bitsOfNat (n v : Nat) : (bitsOfNat n v).length = n := by
  induction n generalizing v with
  | zero => rfl
  | succ n ih => simp [bitsOfNat, ih]

/-- Taking a word off the front gives back the number it was written from, cut to its width. -/
theorem takeWord_bitsOfNat (n v : Nat) (rest : List Bit) :
    takeWord n (bitsOfNat n v ++ rest) = some (v % 2 ^ n, rest) := by
  induction n generalizing v with
  | zero => simp [bitsOfNat, takeWord, Nat.mod_one]
  | succ n ih =>
    have hmod : (v % 2 == 1).toNat + 2 * (v / 2 % 2 ^ n) = v % 2 ^ (n + 1) := by
      have hpow : v % 2 ^ (n + 1) = v % 2 + 2 * (v / 2 % 2 ^ n) := by rw [Nat.pow_succ', Nat.mod_mul]
      rcases Nat.mod_two_eq_zero_or_one v with h | h <;> simp [hpow, h]
    simp [bitsOfNat, takeWord, ih, hmod]

theorem length_encodeBuffer (smp : List Sample) :
    (encodeBuffer smp).length = Config.COUNT_W + Config.SAMPLE_W * smp.length := by
  induction smp with
  | nil => simp [encodeBuffer]
  | cons x xs ih =>
    simp only [encodeBuffer, List.length_append, length_bitsOfNat, List.flatMap_cons, List.length_cons,
      Nat.mul_succ] at ih ⊢
    omega

end Sys2Proof
end

