-- ==== Sys2Proof/Laws/PerInstr.lean ====
section
/-! SUPPORT. Statements made for every instruction, one lemma per constructor. -/

/-- The code of an instruction is as long as the width column of spec/opcode_table.json says: 3 bits, and
`3 + 32 + 16*N` for BUF (30_encoding.md R78, R86). -/
def Sys2Proof.Laws.EncodedLength.Statement (i : Sys2Proof.Instr) : Prop := (Sys2Proof.encode i).length = i.width

namespace Sys2Proof.Laws.EncodedLength

theorem reset : Statement .reset := rfl
theorem gate (g : Bit) : Statement (.gate g) := rfl
theorem buf (smp : List Sample) : Statement (.buf smp) := by
  have h := length_encodeBuffer smp
  simp only [Statement, encode, Instr.width, List.length_cons]
  omega
theorem reserved : Statement .reserved := rfl
theorem sample : Statement .sample := rfl
theorem sync : Statement .sync := rfl
theorem rle : Statement .rle := rfl
theorem clkrec : Statement .clkrec := rfl
theorem extract : Statement .extract := rfl
theorem validate : Statement .validate := rfl
theorem push : Statement .push := rfl
theorem phase : Statement .phase := rfl

end Sys2Proof.Laws.EncodedLength
end

