-- ==== Sys2Proof/Laws/State.lean ====
section
/-! SUPPORT. One lemma per field per update of State, so that no proof unfolds a record update. -/

namespace Sys2Proof.Machine

@[simp] theorem History.push_s0 (h : History) (v : DisplayValue) : (h.push v).s0 = v := rfl
@[simp] theorem History.push_s1 (h : History) (v : DisplayValue) : (h.push v).s1 = h.s0 := rfl
@[simp] theorem History.push_s2 (h : History) (v : DisplayValue) : (h.push v).s2 = h.s1 := rfl

@[simp] theorem History.entries_zero (h : History) : h.entries[0] = h.s0 := rfl
@[simp] theorem History.entries_one (h : History) : h.entries[1] = h.s1 := rfl
@[simp] theorem History.entries_two (h : History) : h.entries[2] = h.s2 := rfl

/-- A push moves every entry one place on and drops the last (46_phase.md R150). -/
theorem History.entries_push (h : History) (v : DisplayValue) : (h.push v).entries = #v[v, h.entries[0], h.entries[1]] :=
  rfl

@[simp] theorem State.goTo_h (s : State) (st : Stage) : (s.goTo st).h = s.h := rfl
@[simp] theorem State.goTo_g (s : State) (st : Stage) : (s.goTo st).g = s.g := rfl
@[simp] theorem State.goTo_tpbQ (s : State) (st : Stage) : (s.goTo st).tpbQ = s.tpbQ := rfl
@[simp] theorem State.goTo_stage (s : State) (st : Stage) : (s.goTo st).stage = st := rfl
@[simp] theorem State.goTo_result (s : State) (st : Stage) : (s.goTo st).result = s.result := rfl
@[simp] theorem State.goTo_port (s : State) (st : Stage) : (s.goTo st).port = s.port := rfl

@[simp] theorem State.openBuf_h (s : State) (smp : List Sample) : (s.openBuf smp).h = s.h := rfl
@[simp] theorem State.openBuf_g (s : State) (smp : List Sample) : (s.openBuf smp).g = s.g := rfl
@[simp] theorem State.openBuf_tpbQ (s : State) (smp : List Sample) : (s.openBuf smp).tpbQ = s.tpbQ := rfl
@[simp] theorem State.openBuf_stage (s : State) (smp : List Sample) : (s.openBuf smp).stage = .atSample smp := rfl
@[simp] theorem State.openBuf_result (s : State) (smp : List Sample) : (s.openBuf smp).result = none := rfl
@[simp] theorem State.openBuf_port (s : State) (smp : List Sample) : (s.openBuf smp).port = s.port := rfl

@[simp] theorem State.endBuf_h (s : State) (r : Result) : (s.endBuf r).h = s.h := rfl
@[simp] theorem State.endBuf_g (s : State) (r : Result) : (s.endBuf r).g = s.g := rfl
@[simp] theorem State.endBuf_tpbQ (s : State) (r : Result) : (s.endBuf r).tpbQ = s.tpbQ := rfl
@[simp] theorem State.endBuf_stage (s : State) (r : Result) : (s.endBuf r).stage = .idle := rfl
@[simp] theorem State.endBuf_result (s : State) (r : Result) : (s.endBuf r).result = some r := rfl
@[simp] theorem State.endBuf_port (s : State) (r : Result) : (s.endBuf r).port = s.port := rfl

@[simp] theorem State.miss_h (s : State) (o : BufOutcome) : (s.miss o).h = s.h := rfl
@[simp] theorem State.miss_g (s : State) (o : BufOutcome) : (s.miss o).g = s.g := rfl
@[simp] theorem State.miss_tpbQ (s : State) (o : BufOutcome) : (s.miss o).tpbQ = s.tpbQ := rfl
@[simp] theorem State.miss_stage (s : State) (o : BufOutcome) : (s.miss o).stage = .idle := rfl
@[simp] theorem State.miss_result (s : State) (o : BufOutcome) : (s.miss o).result = some (Result.missed o) := rfl
@[simp] theorem State.miss_port (s : State) (o : BufOutcome) : (s.miss o).port = s.port := rfl

@[simp] theorem State.pushValue_h (s : State) (v : DisplayValue) : (s.pushValue v).h = s.h.push v := rfl
@[simp] theorem State.pushValue_g (s : State) (v : DisplayValue) : (s.pushValue v).g = s.g := rfl
@[simp] theorem State.pushValue_tpbQ (s : State) (v : DisplayValue) : (s.pushValue v).tpbQ = s.tpbQ := rfl
@[simp] theorem State.pushValue_stage (s : State) (v : DisplayValue) : (s.pushValue v).stage = s.stage := rfl
@[simp] theorem State.pushValue_result (s : State) (v : DisplayValue) : (s.pushValue v).result = s.result := rfl
@[simp] theorem State.pushValue_port (s : State) (v : DisplayValue) : (s.pushValue v).port = s.port := rfl

@[simp] theorem State.clear_h (s : State) : s.clear.h = History.initial := rfl
@[simp] theorem State.clear_g (s : State) : s.clear.g = false := rfl
@[simp] theorem State.clear_tpbQ (s : State) : s.clear.tpbQ = s.tpbQ := rfl
@[simp] theorem State.clear_stage (s : State) : s.clear.stage = .idle := rfl
@[simp] theorem State.clear_result (s : State) : s.clear.result = none := rfl
@[simp] theorem State.clear_port (s : State) : s.clear.port = s.port := rfl

@[simp] theorem State.setGate_h (s : State) (g : Bit) : (s.setGate g).h = s.h := rfl
@[simp] theorem State.setGate_g (s : State) (g : Bit) : (s.setGate g).g = g := rfl
@[simp] theorem State.setGate_tpbQ (s : State) (g : Bit) : (s.setGate g).tpbQ = s.tpbQ := rfl
@[simp] theorem State.setGate_stage (s : State) (g : Bit) : (s.setGate g).stage = s.stage := rfl
@[simp] theorem State.setGate_result (s : State) (g : Bit) : (s.setGate g).result = none := rfl
@[simp] theorem State.setGate_port (s : State) (g : Bit) : (s.setGate g).port = s.port := rfl

@[simp] theorem State.take_h (s : State) (rest : List Bit) : (s.take rest).h = s.h := rfl
@[simp] theorem State.take_g (s : State) (rest : List Bit) : (s.take rest).g = s.g := rfl
@[simp] theorem State.take_tpbQ (s : State) (rest : List Bit) : (s.take rest).tpbQ = s.tpbQ := rfl
@[simp] theorem State.take_stage (s : State) (rest : List Bit) : (s.take rest).stage = s.stage := rfl
@[simp] theorem State.take_result (s : State) (rest : List Bit) : (s.take rest).result = s.result := rfl
@[simp] theorem State.take_port (s : State) (rest : List Bit) : (s.take rest).port = rest := rfl

@[simp] theorem State.rest_h (s : State) : s.rest.h = s.h := rfl
@[simp] theorem State.rest_g (s : State) : s.rest.g = s.g := rfl
@[simp] theorem State.rest_tpbQ (s : State) : s.rest.tpbQ = s.tpbQ := rfl
@[simp] theorem State.rest_stage (s : State) : s.rest.stage = s.stage := rfl
@[simp] theorem State.rest_result (s : State) : s.rest.result = none := rfl
@[simp] theorem State.rest_port (s : State) : s.rest.port = s.port := rfl

@[simp] theorem State.withPort_h (s : State) (port : List Bit) : (s.withPort port).h = s.h := rfl
@[simp] theorem State.withPort_g (s : State) (port : List Bit) : (s.withPort port).g = s.g := rfl
@[simp] theorem State.withPort_tpbQ (s : State) (port : List Bit) : (s.withPort port).tpbQ = s.tpbQ := rfl
@[simp] theorem State.withPort_stage (s : State) (port : List Bit) : (s.withPort port).stage = s.stage := rfl
@[simp] theorem State.withPort_result (s : State) (port : List Bit) : (s.withPort port).result = s.result := rfl
@[simp] theorem State.withPort_port (s : State) (port : List Bit) : (s.withPort port).port = port := rfl

@[simp] theorem State.resetAt_h (sr : SampleRate) : (State.resetAt sr).h = History.initial := rfl
@[simp] theorem State.resetAt_g (sr : SampleRate) : (State.resetAt sr).g = false := rfl
@[simp] theorem State.resetAt_tpbQ (sr : SampleRate) : (State.resetAt sr).tpbQ = sr := rfl
@[simp] theorem State.resetAt_stage (sr : SampleRate) : (State.resetAt sr).stage = .idle := rfl
@[simp] theorem State.resetAt_result (sr : SampleRate) : (State.resetAt sr).result = none := rfl
@[simp] theorem State.resetAt_port (sr : SampleRate) : (State.resetAt sr).port = [] := rfl

end Sys2Proof.Machine
end

