-- ==== Sys2Proof/Laws/Pipeline.lean ====
section
/-! SUPPORT. What the shared operations of a BUF command can do: `thenOp` runs the next operation or stops after a miss,
and each of the eight operations answers one thing at its own stage and a fault everywhere else. Later proofs cite these
lemmas and unfold no meaning. -/

namespace Sys2Proof.Machine

@[simp] theorem isIdle_idle : Stage.isIdle .idle = true := rfl

theorem isIdle_iff (st : Stage) : st.isIdle = true ↔ st = .idle := by cases st <;> simp [Stage.isIdle]

/-- After a miss the operations that follow do nothing. -/
@[simp] theorem thenOp_miss (s : State) (o : BufOutcome) (op : State → Answer) :
    thenOp (.next (s.miss o)) op = .next (s.miss o) := rfl

@[simp] theorem thenOp_fault (f : Fault) (op : State → Answer) : thenOp (.fault f) op = .fault f := rfl

@[simp] theorem thenOp_refused (r : Refusal) (op : State → Answer) : thenOp (.refused r) op = .refused r := rfl

/-- While the command runs, the next operation runs. -/
theorem thenOp_running {s : State} (h : s.stage.isIdle = false) (op : State → Answer) :
    thenOp (.next s) op = op s := by simp [thenOp, h]

theorem thenOp_idle {s : State} (h : s.stage = .idle) (op : State → Answer) : thenOp (.next s) op = .next s := by
  simp [thenOp, h]

/-- An operation that a `thenOp` reaches starts from a running state, or the answer is the state before it. -/
theorem thenOp_next {a : Answer} {op : State → Answer} {t : State} (h : thenOp a op = .next t) :
    ∃ s, a = .next s ∧ ((s.stage = .idle ∧ t = s) ∨ (s.stage.isIdle = false ∧ op s = .next t)) := by
  cases a with
  | fault f => cases h
  | refused r => cases h
  | next s =>
    cases hs : s.stage.isIdle with
    | true =>
      have hi := (isIdle_iff _).1 hs
      rw [thenOp_idle hi] at h
      cases h
      exact ⟨_, rfl, .inl ⟨hi, rfl⟩⟩
    | false => exact ⟨s, rfl, .inr ⟨hs, by rwa [thenOp_running hs] at h⟩⟩

theorem execSample_at {s : State} {smp : List Sample} (h : s.stage = .atSample smp) :
    execSample s = .next (s.goTo (.atSync (sampleAll smp))) := by simp [execSample, h]

theorem execSync_none {s : State} {bits : List Bit} (h : s.stage = .atSync bits)
    (hn : syncStart s.tpbQ bits = none) : execSync s = .next (s.miss .noSync) := by simp [execSync, h, hn]

theorem execSync_some {s : State} {bits : List Bit} {i : Nat} (h : s.stage = .atSync bits)
    (hi : syncStart s.tpbQ bits = some i) : execSync s = .next (s.goTo (.atRle bits i)) := by
  simp [execSync, h, hi]

theorem execRle_at {s : State} {bits : List Bit} {i : Nat} (h : s.stage = .atRle bits i) :
    execRle s = .next (s.goTo (.atClkrec (rleRuns (bits.drop i)))) := by simp [execRle, h]

theorem execClkrec_at {s : State} {runs : List Run} (h : s.stage = .atClkrec runs) :
    execClkrec s = .next (s.goTo (.atExtract (recoverClock s.tpbQ runs))) := by simp [execClkrec, h]

theorem execExtract_none {s : State} {stream : List Bit} (h : s.stage = .atExtract stream)
    (hn : extractPacket stream = none) : execExtract s = .next (s.miss .truncated) := by
  simp [execExtract, h, hn]

theorem execExtract_some {s : State} {stream : List Bit} {p : Packet} (h : s.stage = .atExtract stream)
    (hp : extractPacket stream = some p) : execExtract s = .next (s.goTo (.atValidate p)) := by
  simp [execExtract, h, hp]

theorem execValidate_none {s : State} {p : Packet} (h : s.stage = .atValidate p)
    (hn : validatePacket p = none) : execValidate s = .next (s.miss .noDigitMatch) := by
  simp [execValidate, h, hn]

theorem execValidate_some {s : State} {p : Packet} {v : DisplayValue} (h : s.stage = .atValidate p)
    (hv : validatePacket p = some v) : execValidate s = .next (s.goTo (.atPush v)) := by
  simp [execValidate, h, hv]

theorem execPush_at {s : State} {v : DisplayValue} (h : s.stage = .atPush v) :
    execPush s = .next ((s.pushValue v).goTo (.atPhase v)) := by simp [execPush, h]

theorem execPhase_at {s : State} {v : DisplayValue} (h : s.stage = .atPhase v) :
    execPhase s = .next (s.goTo (.atReturn v (phaseEvents s.h))) := by simp [execPhase, h]

theorem returnOk_at {s : State} {v : DisplayValue} {ev : Events} (h : s.stage = .atReturn v ev) :
    returnOk s = .next (s.endBuf (Result.decoded v ev)) := by simp [returnOk, h]

/-! What an operation that answers a next state has done. -/

theorem execSample_next {s t : State} (h : execSample s = .next t) :
    ∃ smp, s.stage = .atSample smp ∧ t = s.goTo (.atSync (sampleAll smp)) := by
  unfold execSample at h
  split at h
  · next smp hs => cases h; exact ⟨smp, hs, rfl⟩
  · cases h

theorem execSync_next {s t : State} (h : execSync s = .next t) :
    ∃ bits, s.stage = .atSync bits ∧
      ((syncStart s.tpbQ bits = none ∧ t = s.miss .noSync) ∨
        ∃ i, syncStart s.tpbQ bits = some i ∧ t = s.goTo (.atRle bits i)) := by
  unfold execSync at h
  split at h
  · next bits hs =>
    refine ⟨bits, hs, ?_⟩
    split at h
    · next hn => cases h; exact .inl ⟨hn, rfl⟩
    · next i hi => cases h; exact .inr ⟨i, hi, rfl⟩
  · cases h

theorem execRle_next {s t : State} (h : execRle s = .next t) :
    ∃ bits i, s.stage = .atRle bits i ∧ t = s.goTo (.atClkrec (rleRuns (bits.drop i))) := by
  unfold execRle at h
  split at h
  · next bits i hs => cases h; exact ⟨bits, i, hs, rfl⟩
  · cases h

theorem execClkrec_next {s t : State} (h : execClkrec s = .next t) :
    ∃ runs, s.stage = .atClkrec runs ∧ t = s.goTo (.atExtract (recoverClock s.tpbQ runs)) := by
  unfold execClkrec at h
  split at h
  · next runs hs => cases h; exact ⟨runs, hs, rfl⟩
  · cases h

theorem execExtract_next {s t : State} (h : execExtract s = .next t) :
    ∃ stream, s.stage = .atExtract stream ∧
      ((extractPacket stream = none ∧ t = s.miss .truncated) ∨
        ∃ p, extractPacket stream = some p ∧ t = s.goTo (.atValidate p)) := by
  unfold execExtract at h
  split at h
  · next stream hs =>
    refine ⟨stream, hs, ?_⟩
    split at h
    · next hn => cases h; exact .inl ⟨hn, rfl⟩
    · next p hp => cases h; exact .inr ⟨p, hp, rfl⟩
  · cases h

theorem execValidate_next {s t : State} (h : execValidate s = .next t) :
    ∃ p, s.stage = .atValidate p ∧
      ((validatePacket p = none ∧ t = s.miss .noDigitMatch) ∨
        ∃ v, validatePacket p = some v ∧ t = s.goTo (.atPush v)) := by
  unfold execValidate at h
  split at h
  · next p hs =>
    refine ⟨p, hs, ?_⟩
    split at h
    · next hn => cases h; exact .inl ⟨hn, rfl⟩
    · next v hv => cases h; exact .inr ⟨v, hv, rfl⟩
  · cases h

theorem execPush_next {s t : State} (h : execPush s = .next t) :
    ∃ v, s.stage = .atPush v ∧ t = (s.pushValue v).goTo (.atPhase v) := by
  unfold execPush at h
  split at h
  · next v hs => cases h; exact ⟨v, hs, rfl⟩
  · cases h

theorem execPhase_next {s t : State} (h : execPhase s = .next t) :
    ∃ v, s.stage = .atPhase v ∧ t = s.goTo (.atReturn v (phaseEvents s.h)) := by
  unfold execPhase at h
  split at h
  · next v hs => cases h; exact ⟨v, hs, rfl⟩
  · cases h

end Sys2Proof.Machine
end

