-- ==== Sys2Proof/Laws/Recovery.lean ====
section
/-! SUPPORT. The algorithms of the bit-recovery operations, one equation per case, and the constants they use. -/

namespace Sys2Proof.Machine

/-- `9*10 - 2` positions (00_scope.md R9). -/
theorem need_eq : Config.NEED = 88 := rfl

@[simp] theorem sampleAll_nil : sampleAll [] = [] := rfl

@[simp] theorem sampleAll_cons (x : Sample) (smp : List Sample) :
    sampleAll (x :: smp) = sampleBit x :: sampleAll smp := rfl

@[simp] theorem length_sampleAll (smp : List Sample) : (sampleAll smp).length = smp.length := by simp [sampleAll]

@[simp] theorem syncScan_nil (sr : SampleRate) (i cnt : Nat) (wait : Bit) : syncScan sr i cnt wait [] = none := rfl

/-- A mark is counted first and tested then (41_frame_sync.md R105). -/
@[simp] theorem syncScan_mark (sr : SampleRate) (i cnt : Nat) (wait : Bit) (bits : List Bit) :
    syncScan sr i cnt wait (true :: bits) =
      syncScan sr (i + 1) (cnt + 1) (wait || exceeds sr (cnt + 1)) bits := rfl

theorem syncScan_space_waiting (sr : SampleRate) (i cnt : Nat) (bits : List Bit) :
    syncScan sr i cnt true (false :: bits) = some i := rfl

theorem syncScan_space_not_waiting (sr : SampleRate) (i cnt : Nat) (bits : List Bit) :
    syncScan sr i cnt false (false :: bits) = syncScan sr (i + 1) 0 false bits := rfl

@[simp] theorem rleFrom_nil (cur : Run) : rleFrom cur [] = [cur] := rfl

theorem rleFrom_same (cur : Run) (bits : List Bit) :
    rleFrom cur (cur.bit :: bits) = rleFrom ⟨cur.bit, cur.len + 1, Nat.succ_pos _⟩ bits := by simp [rleFrom]

theorem rleFrom_change {cur : Run} {b : Bit} (h : b ≠ cur.bit) (bits : List Bit) :
    rleFrom cur (b :: bits) = cur :: rleFrom ⟨b, 1, Nat.one_pos⟩ bits := by simp [rleFrom, h]

/-- The runs always begin with one of the bit that was being counted. -/
theorem rleFrom_head (cur : Run) (bits : List Bit) : ∃ r runs, rleFrom cur bits = r :: runs ∧ r.bit = cur.bit := by
  induction bits generalizing cur with
  | nil => exact ⟨cur, [], rfl, rfl⟩
  | cons b bits ih =>
    by_cases h : b = cur.bit
    · subst h
      rw [rleFrom_same]
      exact ih _
    · exact ⟨cur, _, rleFrom_change h bits, rfl⟩

@[simp] theorem rleRuns_nil : rleRuns [] = [] := rfl

theorem rleRuns_cons (b : Bit) (bits : List Bit) : rleRuns (b :: bits) = rleFrom ⟨b, 1, Nat.one_pos⟩ bits := rfl

@[simp] theorem recoverClock_nil (sr : SampleRate) : recoverClock sr [] = [] := rfl

theorem recoverClock_cons (sr : SampleRate) (r : Run) (runs : List Run) :
    recoverClock sr (r :: runs) = List.replicate (reps sr r.len) r.bit ++ recoverClock sr runs := by
  simp [recoverClock]

theorem extractPacket_short {stream : List Bit} (h : stream.length < 89) : extractPacket stream = none := by
  have : (stream.drop 1).length < Config.NEED := by rw [need_eq, List.length_drop]; omega
  simp only [extractPacket, if_pos this]

theorem extractPacket_long {stream : List Bit} (h : 89 ≤ stream.length) :
    extractPacket stream = some (packetOf (stream.drop 1)) := by
  have : ¬ (stream.drop 1).length < Config.NEED := by rw [need_eq, List.length_drop]; omega
  simp only [extractPacket, if_neg this]

theorem packetOf_get (S : List Bit) (k : Nat) (h : k < Config.PACKET_LEN) : (packetOf S)[k] = byteAt S k := by
  simp [packetOf]

/-- The window's byte `j` is the Packet's byte `o + j` (45_digit_validate.md R141). -/
theorem window_get (p : Packet) (o : Fin 4) (j : Nat) (h : j < Config.WIN) :
    (window p o)[j] = p[o.val + j]'(inPacket o j h) := by
  have hj : j < 6 := h
  interval_cases j <;> rfl

/-- VALIDATE answers a value of one of the four windows only if all its six bytes are digits. -/
theorem validatePacket_some {p : Packet} {v : DisplayValue} (h : validatePacket p = some v) :
    ∃ o ∈ Config.OFFSETS, allDigits (window p o) = true ∧ v = displayOf (window p o) := by
  simp only [validatePacket, Option.map_eq_some_iff] at h
  obtain ⟨o, ho, rfl⟩ := h
  have hd := List.find?_some (p := fun o => allDigits (window p o)) ho
  exact ⟨o, List.mem_of_find?_eq_some ho, hd, rfl⟩

end Sys2Proof.Machine
end

