-- ==== Sys2Proof/Laws/Step.lean ====
section
/-! SUPPORT. The cases of `fetch` and of `step`, said once. -/

namespace Sys2Proof.Machine

theorem fetch_nil : fetch [] = .empty := rfl

theorem decode_nil : decode .cw [] = .error .noCommandWord := rfl

theorem fetch_command {port rest : List Bit} {i : Instr} (h : decode .cw port = .ok (i, rest)) :
    fetch port = .command i rest := by
  cases port with
  | nil => cases h
  | cons b bits => simp [fetch, h]

theorem fetch_incomplete {b : Bit} {bits : List Bit} {e : DecodeError} (h : decode .cw (b :: bits) = .error e) :
    fetch (b :: bits) = .incomplete := by simp [fetch, h]

/-- What a step finds on the port, and what it then is. -/
theorem step_cases (s : State) :
    (s.port = [] ∧ step s = .next s.rest) ∨
    (∃ i rest, decode .cw s.port = .ok (i, rest) ∧ step s = exec i (s.take rest)) ∨
    (∃ e, s.port ≠ [] ∧ decode .cw s.port = .error e ∧ step s = .refused .portIncomplete) := by
  cases hp : s.port with
  | nil => exact .inl ⟨rfl, by simp [step, hp, fetch_nil]⟩
  | cons b bits =>
    cases hd : decode .cw (b :: bits) with
    | ok p =>
      obtain ⟨i, rest⟩ := p
      exact .inr (.inl ⟨i, rest, rfl, by simp [step, hp, fetch_command hd]⟩)
    | error e => exact .inr (.inr ⟨e, by simp, rfl, by simp [step, hp, fetch_incomplete hd]⟩)

/-- The command port never gives an operation label (30_encoding.md R79). -/
theorem decode_cw_format {port rest : List Bit} {i : Instr} (h : decode .cw port = .ok (i, rest)) :
    i.format = .cw := by
  simp only [decode] at h
  unfold decodeCommand at h
  split at h
  case h_3 bits =>
    unfold decodeBuffer at h
    split at h
    · cases h
    · split at h
      · cases h
      · cases h; rfl
  all_goals cases h
  all_goals rfl

end Sys2Proof.Machine
end

