-- ==== Sys2Proof/Tests/Slice0.lean ====
section
/-! SUPPORT. Tests of one step each, their results taken from the vectors of spec/95_test_vectors.md (named A, B, L, C, E,
V, H, K, P there) and from the rules; and one witness for every statement that has hypotheses. -/

namespace Sys2Proof.Tests

open Machine

/-! ## Helpers -/

def sr1200 : SampleRate := ⟨1200, by decide⟩
def sr48000 : SampleRate := ⟨48000, by decide⟩
def sr44100 : SampleRate := ⟨44100, by decide⟩
def sr8000 : SampleRate := ⟨8000, by decide⟩

/-- Reset, then `GATE 1`, at 1200 samples a second: the start state of most vectors. -/
def openState : State := (State.resetAt sr1200).setGate true

/-- The stage put in by hand, to run one operation alone. -/
def atStage (st : Stage) : State := openState.goTo st

def samplesOf (items : List Item) : List Sample := items.flatMap itemSamples

def p1Items1 : List Item :=
  [.m 10, .s 1, .m 1, .s 2, .m 1, .s 2, .m 1, .s 1, .m 1, .s 5, .m 2, .s 2, .m 1, .s 1, .m 1, .s 3, .m 2, .s 2]
def p1Items2 : List Item :=
  [.m 1, .s 1, .m 2, .s 2, .m 2, .s 2, .m 1, .s 5, .m 2, .s 2, .m 1, .s 3, .m 1, .s 1, .m 2, .s 2, .m 1, .s 1]
def p1Items3 : List Item :=
  [.m 1, .s 1, .m 1, .s 1, .m 2, .s 2, .m 1, .s 7, .m 1, .s 1, .m 1, .s 2, .m 1, .s 1, .m 1]

/-- The buffer of P1, as its items are written there, but for the last two, `S4 M3`. -/
def p1Head : List Item := p1Items1 ++ (p1Items2 ++ p1Items3)

/-- The buffer of P1: 102 samples that carry "013045". -/
def p1 : List Sample := samplesOf (p1Head ++ [Item.s 4, Item.m 3])

/-- P4 step 5: P1 with its last two items replaced by `S3`; one sample too short. -/
def p4Short : List Sample := samplesOf (p1Head ++ [Item.s 3])

def packetV1 : Packet := #v[73, 48, 49, 51, 48, 52, 53, 64, 10]

/-- P4 step 6: the frame with byte 58 in the middle of the digits. -/
def p4NoDigits : List Sample := frameBuffer sr1200 #v[73, 48, 49, 51, 58, 52, 53, 64, 10] 10 2

/-- E2: the least stream that has a Packet, 89 bits. -/
def streamE2 : List Bit :=
  false :: ((List.replicate 8 [true, false, false, true, false, false, true, false, true, false]).flatten ++
    [false, true, false, true, false, false, false, false])

def d013045 : DisplayValue := 0x303133303435#48
def d000001 : DisplayValue := 0x303030303031#48
def d000002 : DisplayValue := 0x303030303032#48
def d999999 : DisplayValue := 0x393939393939#48

def starting : Events := ⟨false, false, true, false, false⟩

/-- The state after P1 from `openState`. -/
def p1After : State :=
  { openState with h := ⟨d013045, Z, Z⟩, result := some ⟨.ok, starting, some d013045⟩ }

/-! ## Well-formedness -/

theorem wellFormed_too_long {smp : List Sample} (h : smp.length = 2 ^ 32) : (Instr.buf smp).wellFormed = false :=
  decide_eq_false (by rw [h]; exact Nat.lt_irrefl _)

theorem test_wellFormed_refuses_too_long : (Instr.buf (List.replicate (2 ^ 32) 0)).wellFormed = false :=
  wellFormed_too_long List.length_replicate

theorem test_wellFormed_accepts_short : (Instr.buf [0, 0]).wellFormed = true := by decide

/-! ## Decoding: words written out from the encodings of 30_encoding.md R77, R78 and the table, bit 0 first -/

theorem test_decode_reset : decode .cw [false, false, false] = .ok (.reset, []) := rfl
theorem test_decode_reset_ignored_bit : decode .cw [true, false, false] = .ok (.reset, []) := rfl
theorem test_decode_gate_open : decode .cw [true, true, false] = .ok (.gate true, []) := rfl
theorem test_decode_gate_close : decode .cw [false, true, false, true] = .ok (.gate false, [true]) := rfl
theorem test_decode_reserved : decode .cw [false, true, true] = .ok (.reserved, []) := rfl
theorem test_decode_reserved_one : decode .cw [true, true, true] = .ok (.reserved, []) := rfl

/-- `CW=101`, `N=0`: `CW[0]` of BUF is ignored (30_encoding.md R85 (b)). -/
theorem test_decode_buf_ignored_bit : decode .cw ([true, false, true] ++ List.replicate 32 false) = .ok (.buf [], []) := rfl

/-- `CW=100`, `N=2`, then the words `C000` (-16384) and `0001`. -/
theorem test_decode_buf : decode .cw
    ([false, false, true] ++ ([false, true] ++ List.replicate 30 false) ++
      (List.replicate 14 false ++ [true, true]) ++ (true :: List.replicate 15 false)) =
    .ok (.buf [0xC000#16, 1#16], []) := rfl

theorem test_decode_sample : decode .op [false, false, false] = .ok (.sample, []) := rfl
theorem test_decode_sync : decode .op [true, false, false] = .ok (.sync, []) := rfl
theorem test_decode_rle : decode .op [false, true, false] = .ok (.rle, []) := rfl
theorem test_decode_clkrec : decode .op [true, true, false] = .ok (.clkrec, []) := rfl
theorem test_decode_extract : decode .op [false, false, true] = .ok (.extract, []) := rfl
theorem test_decode_validate : decode .op [true, false, true] = .ok (.validate, []) := rfl
theorem test_decode_push : decode .op [false, true, true] = .ok (.push, []) := rfl
theorem test_decode_phase : decode .op [true, true, true] = .ok (.phase, []) := rfl

theorem test_decode_short_word : decode .cw [false, true] = .error .noCommandWord := rfl
theorem test_decode_no_length : decode .cw [false, false, true, true] = .error .noLength := rfl
theorem test_decode_no_samples :
    decode .cw ([false, false, true] ++ (true :: List.replicate 31 false)) = .error .noSamples := rfl

theorem test_table_reset : decodeTableWord 8 0 = some .reset := by decide
theorem test_table_gate : decodeTableWord 8 3 = some (.gate true) := by decide
theorem test_table_buf : decodeTableWord 8 4 = some (.buf []) := by decide
theorem test_table_reserved : decodeTableWord 8 6 = some .reserved := by decide

/-! ## The commands (vectors K) -/

/-- K8. -/
theorem test_reset : exec .reset { openState with h := ⟨d000001, d000002, d999999⟩ } =
    .next { openState with h := ⟨Z, Z, Z⟩, g := false } := rfl

/-- K7. -/
theorem test_gate : exec (.gate false) { openState with h := ⟨d000001, d000002, d999999⟩ } =
    .next { openState with h := ⟨d000001, d000002, d999999⟩, g := false } := rfl

/-- K2, P1: the whole pipeline. -/
theorem test_buf_p1 : exec (.buf p1) openState = .next p1After := rfl

/-- K5: `BUF M10 S1 M1 S1` is Truncated. -/
theorem test_buf_truncated : exec (.buf (samplesOf [.m 10, .s 1, .m 1, .s 1])) openState =
    .next { openState with result := some ⟨.truncated, Events.none, none⟩ } := rfl

/-- K10. -/
theorem test_reserved : step (openState.withFetchWord 8 7) = .refused .reservedCommand := rfl

/-- What a step answers, as data that can be compared. -/
def nextOf (a : Answer) : Option State :=
  match a with
  | .next s => some s
  | .fault _ => none
  | .refused _ => none

/-- P1 as the host sends it, through the port and the decoder. -/
theorem test_step_p1 : nextOf (step { openState with port := encode (.buf p1) }) = some p1After := by decide +kernel

/-- P1's buffer is what FRAME makes of its bytes (30_encoding.md R88). -/
theorem test_frame_p1 : frameBuffer sr1200 packetV1 10 2 = p1 := by decide

/-- The example of 30_encoding.md R87: `BUF M11 S1 M3` is 15 samples; and START of R88. -/
theorem test_script_lines :
    lineCommand (.buf [.m 11, .s 1, .m 3]) =
      .buf (List.replicate 11 0xC000#16 ++ (0x4000#16 :: List.replicate 3 0xC000#16)) ∧
    lineCommand .start = .gate true := by decide

/-- K2 and K1, the packed records. -/
theorem test_pack_ok : packResult ⟨.ok, starting, some d013045⟩ = 0x009303133303435#57 := by decide
theorem test_pack_gated : packResult (Result.missed .gated) = 0x100000000000000#57 := by decide

/-! ## The operations -/

/-- HIST entries, newest first, and a push over them (00_scope.md R9, 46_phase.md R150). -/
theorem test_history_entries :
    ((History.mk d000001 d000002 d999999).push Z).entries.toList = [Z, d000001, d000002] ∧
    History.initial.entries.size = 3 := by decide

/-- A1 to A7. -/
theorem test_sample_vectors :
    sampleAll [0x8000#16, 0xC000#16, 0xFFFF#16, 0#16, 1#16, 0x4000#16, 0x7FFF#16] =
      [true, true, true, false, false, false, false] := by decide

theorem test_exec_sample : exec .sample (atStage (.atSample [0xFFFB#16, 7#16, 0#16, 0xFFFF#16])) =
    .next (atStage (.atSync [true, false, false, true])) := rfl

/-- B5 and B2. -/
theorem test_sync_restarts : syncStart sr1200 (sampleAll (samplesOf [.m 9, .s 1, .m 10, .s 1])) = some 20 := by decide
theorem test_sync_nine_marks : syncStart sr1200 (sampleAll (samplesOf [.m 9, .s 1])) = none := by decide

/-- The runs of L3. -/
theorem test_rle : (rleRuns [false, false, true, true, true, false]).map (fun r => (r.bit, r.len)) =
    [(false, 2), (true, 3), (false, 1)] := by decide

/-- RLE starts at the frame start, not at the beginning of the buffer (42_rle.md R113). -/
theorem test_exec_rle : exec .rle (atStage (.atRle [true, true, false, true] 2)) =
    .next (atStage (.atClkrec [⟨false, 1, by decide⟩, ⟨true, 1, by decide⟩])) := rfl

/-- C2, ties included, and C3 and C4. -/
theorem test_reps : [19, 20, 59, 60, 361].map (reps sr48000) = [0, 1, 1, 2, 9] ∧
    [18, 19, 331].map (reps sr44100) = [0, 1, 9] ∧ [3, 4, 10].map (reps sr8000) = [0, 1, 2] := by decide

/-- C7: a run that vanishes, its neighbours not merged. -/
theorem test_clkrec_vanish :
    recoverClock sr48000 [⟨false, 40, by decide⟩, ⟨true, 19, by decide⟩, ⟨false, 40, by decide⟩] = [false, false] := by
  decide

/-- E2 and E3. -/
theorem test_extract_least : extractPacket streamE2 = some #v[73, 73, 73, 73, 73, 73, 73, 73, 10] := by decide
theorem test_extract_one_short : extractPacket streamE2.dropLast = none := by decide

/-- V1 and V6. -/
theorem test_validate : validatePacket packetV1 = some d013045 := by decide
theorem test_validate_none : validatePacket #v[47, 48, 48, 48, 48, 48, 58, 48, 48] = none := by decide

/-- From `[a, b, n]`, `PUSH(Z)` gives `[Z, a, b]`. -/
theorem test_push : exec .push { atStage (.atPush Z) with h := ⟨d000001, d000002, d999999⟩ } =
    .next { atStage (.atPhase Z) with h := ⟨Z, d000001, d000002⟩ } := rfl

/-- H1 to H11. -/
theorem test_phase_rows :
    [(Z, Z, Z), (Z, Z, d000001), (Z, d000001, Z), (d000001, Z, d999999), (d000002, d000001, Z),
      (d000001, d000001, d000001), (d000001, d000001, d000002)].map
      (fun h => eventBits (phaseEvents ⟨h.1, h.2.1, h.2.2⟩)) =
    [0b00001#5, 0b00000#5, 0b00010#5, 0b00100#5, 0b01000#5, 0b10000#5, 0b00000#5] := by decide

theorem test_exec_phase : exec .phase { atStage (.atPhase d000001) with h := ⟨d000001, Z, Z⟩ } =
    .next { atStage (.atReturn d000001 starting) with h := ⟨d000001, Z, Z⟩ } := rfl

/-! ## Witnesses: concrete states and operands that meet all hypotheses of a statement together -/

theorem witness_BufSkippedWhenGateClosed : State.reset.g = false := rfl

theorem witness_BufRunsPipeline : openState.g = true := rfl

/-- One buffer for each of the five outcomes, from one state but for the gate. -/
theorem witness_BufExitOrder :
    (∃ t r, exec (.buf p1) State.reset = .next t ∧ t.result = some r ∧ r.outcome = .gated) ∧
    (∃ t r, exec (.buf []) openState = .next t ∧ t.result = some r ∧ r.outcome = .noSync) ∧
    (∃ t r, exec (.buf p4Short) openState = .next t ∧ t.result = some r ∧ r.outcome = .truncated) ∧
    (∃ t r, exec (.buf p4NoDigits) openState = .next t ∧ t.result = some r ∧ r.outcome = .noDigitMatch) ∧
    (∃ t r, exec (.buf p1) openState = .next t ∧ t.result = some r ∧ r.outcome = .ok) :=
  ⟨⟨_, _, rfl, rfl, rfl⟩, ⟨_, _, rfl, rfl, rfl⟩,
    ⟨{ openState with result := some (Result.missed .truncated) }, _, rfl, rfl, rfl⟩,
    ⟨{ openState with result := some (Result.missed .noDigitMatch) }, _, rfl, rfl, rfl⟩, ⟨p1After, _, rfl, rfl, rfl⟩⟩

theorem witness_BufOutcomeTable :
    (∃ t, exec (.buf p1) openState = .next t) ∧ ∃ t, exec (.buf p1) State.reset = .next t :=
  ⟨⟨p1After, rfl⟩, ⟨_, rfl⟩⟩

/-- Two states with the same gate and rate but another history; and the same state twice, for the last clause. -/
theorem witness_BufDependsOnBufferOnly :
    (∃ s' t t' r r', openState.g = s'.g ∧ openState.tpbQ = s'.tpbQ ∧ exec (.buf p1) openState = .next t ∧
      exec (.buf p1) s' = .next t' ∧ t.result = some r ∧ t'.result = some r' ∧ openState.h ≠ s'.h) ∧
    ∃ s' t t' r r', openState.g = s'.g ∧ openState.tpbQ = s'.tpbQ ∧ exec (.buf p1) openState = .next t ∧
      exec (.buf p1) s' = .next t' ∧ t.result = some r ∧ t'.result = some r' ∧ openState.h = s'.h :=
  ⟨⟨{ openState with h := ⟨d000001, Z, Z⟩ }, p1After,
      { openState with
        h := ⟨d013045, d000001, Z⟩
        result := some ⟨.ok, ⟨false, false, false, true, false⟩, some d013045⟩ },
      _, _, rfl, rfl, rfl, rfl, rfl, rfl, by decide⟩,
    ⟨openState, p1After, p1After, _, _, rfl, rfl, rfl, rfl, rfl, rfl, rfl⟩⟩

theorem witness_MissLeavesNoTrace :
    ∃ t r, BetweenCommands openState ∧ exec (.buf []) openState = .next t ∧ t.result = some r ∧ r.outcome ≠ .ok ∧
      (Instr.buf p1).format = .cw :=
  ⟨_, _, rfl, rfl, rfl, by decide, rfl⟩

/-- Both clauses: a value with an event and a miss. -/
theorem witness_NotificationCounts :
    (∃ t r, exec (.buf p1) openState = .next t ∧ t.result = some r ∧ r.outcome = .ok) ∧
    ∃ t r, exec (.buf []) openState = .next t ∧ t.result = some r ∧ r.outcome ≠ .ok :=
  ⟨⟨p1After, _, rfl, rfl, rfl⟩, ⟨_, _, rfl, rfl, by decide⟩⟩

theorem witness_SampleOperation : (atStage (.atSample [0#16, 0xFFFF#16])).stage = .atSample [0#16, 0xFFFF#16] := rfl

theorem witness_SampleCompletes : (openState.openBuf [0#16, 0xFFFF#16]).stage = .atSample [0#16, 0xFFFF#16] := rfl

theorem witness_SampleOperation_index : [0#16, 0xFFFF#16][1]? = some 0xFFFF#16 := rfl

/-- Both clauses: ten marks and a space (B1), and ten marks alone (B3). -/
theorem witness_SyncOperation :
    syncStart (atStage (.atSync (List.replicate 10 true ++ [false]))).tpbQ (List.replicate 10 true ++ [false]) =
      some 10 ∧
    syncStart (atStage (.atSync (List.replicate 10 true))).tpbQ (List.replicate 10 true) = none := by decide

/-- B8: a second idle period follows the first frame start. -/
theorem witness_SyncIgnoresLaterBits : syncStart sr1200 (List.replicate 10 true ++ [false]) = some 10 := by decide

theorem witness_SilenceNeverSynchronizes : openState.g = true ∧ ∀ x ∈ [0#16, 0x7FFF#16], ¬ x.toInt < 0 := by
  refine ⟨rfl, fun x hx => ?_⟩
  rcases List.mem_cons.1 hx with rfl | hx
  · decide
  · cases List.mem_singleton.1 hx
    decide

theorem witness_RleOperation : (atStage (.atRle [true, false] 1)).stage = .atRle [true, false] 1 := rfl

/-- Both clauses of the step: the last run has the new bit, and it has the other. -/
theorem witness_RleMergesOrStartsRun :
    (rleRuns [true]).getLast? = some ⟨true, 1, by decide⟩ ∧
    ∀ r, (rleRuns [true]).getLast? = some r → r.bit ≠ false := by
  refine ⟨rfl, ?_⟩
  intro r h
  cases h
  decide

/-- Runs that differ from their neighbours and write out a sequence. -/
theorem witness_RleRunsAreMaximal :
    NeighboursDiffer [⟨true, 2, by decide⟩, ⟨false, 1, by decide⟩] ∧
    writeOut [⟨true, 2, by decide⟩, ⟨false, 1, by decide⟩] = [true, true, false] := by
  refine ⟨⟨by decide, trivial⟩, by decide⟩

theorem witness_RecoveredRunsStartWithSpace : syncStart sr1200 (List.replicate 10 true ++ [false]) = some 10 := by
  decide

theorem witness_ClkrecOperation :
    (atStage (.atClkrec [⟨true, 2, by decide⟩])).stage = .atClkrec [⟨true, 2, by decide⟩] := rfl

/-- Under either tie rule at a tie (`L = 20` at 48000), and no tie at `L = 19`. -/
theorem witness_RepsRoundsToNearest :
    repsTie .up sr48000 20 = 1 ∧ repsTie .down sr48000 20 = 0 ∧ ∀ n, 2400 * 19 ≠ (2 * n + 1) * sr48000.hz := by
  refine ⟨by decide, by decide, fun n => ?_⟩
  simp only [sr48000]
  omega

/-- The longest run that vanishes at 48000 (`L = 19`), and the tie next to it, which does not (`L = 20`). -/
theorem witness_ShortRunVanishes :
    2400 * (Run.mk true 19 (by decide)).len < sr48000.hz ∧ reps sr48000 19 = 0 ∧
    2400 * (Run.mk true 20 (by decide)).len = sr48000.hz ∧ reps sr48000 20 = 1 := by decide

theorem witness_RoundTripAtUnitRate : sr1200.hz = 1200 := rfl

/-- Both clauses at the boundary: 88 bits and 89. -/
theorem witness_ExtractTruncation :
    streamE2.dropLast.length = 88 ∧ streamE2.length = 89 ∧
    (atStage (.atExtract streamE2)).stage = .atExtract streamE2 := by decide

theorem witness_ExtractBytes : (atStage (.atExtract streamE2)).stage = .atExtract streamE2 ∧ 89 ≤ streamE2.length := by
  decide

/-- E6 and E7: another first bit and another stop bit, the same data bits. -/
theorem witness_ExtractIgnoresFraming :
    89 ≤ (true :: streamE2.tail).length ∧ 89 ≤ streamE2.length ∧
    ∀ j, ReadPosition j → (true :: streamE2.tail)[j]? = streamE2[j]? := by
  refine ⟨by decide, by decide, ?_⟩
  rintro j ⟨k, i, _, _, rfl⟩
  have h : 1 + 10 * k + i = 10 * k + i + 1 := by omega
  rw [h]
  rfl

/-- The offset 1 of V1, the offset before it failing, and the last offset with V3. -/
theorem witness_ValidateTakesFirstWindow :
    (atStage (.atValidate packetV1)).stage = .atValidate packetV1 ∧ DigitsFrom packetV1 1 ∧
    ¬ DigitsFrom packetV1 0 ∧ DigitsFrom #v[0, 0, 0, 48, 49, 50, 51, 52, 57] 3 := by
  refine ⟨rfl, ?_, ?_, ?_⟩
  · intro j hj
    interval_cases j <;> exact ⟨_, rfl, by decide⟩
  · intro h
    obtain ⟨b, hb, h1, h2⟩ := h 0 (by decide)
    cases hb
    exact absurd h2 (by decide)
  · intro j hj
    interval_cases j <;> exact ⟨_, rfl, by decide⟩

/-- V13. -/
theorem witness_ValidateNoMatch : ∀ o, o ≤ 3 → ¬ DigitsFrom #v[0, 0, 0, 0, 0, 0, 0, 0, 0] o := by
  intro o ho h
  obtain ⟨b, hb, h1, h2⟩ := h 0 (by decide)
  interval_cases o <;> cases hb <;> exact absurd h1 (by decide)

theorem witness_ValidateNoMatch_stage :
    (atStage (.atValidate #v[0, 0, 0, 0, 0, 0, 0, 0, 0])).stage = .atValidate #v[0, 0, 0, 0, 0, 0, 0, 0, 0] := rfl

theorem witness_DisplayLayout : ∀ j, j < 6 → charAt d013045 j = charAt (displayOf #v[48, 49, 51, 48, 52, 53]) j := by
  decide

theorem witness_ValidateYieldsDigits : validatePacket packetV1 = some d013045 := by decide

theorem witness_PushOperation : (atStage (.atPush d013045)).stage = .atPush d013045 := rfl

theorem witness_PhaseOperation : (atStage (.atPhase d013045)).stage = .atPhase d013045 := rfl

/-- Both clauses: the value decoded again is not `Z`, and it is. -/
theorem witness_EventsAreLevels :
    (∃ t r, exec (.buf p1) { openState with h := ⟨d013045, d013045, d013045⟩ } = .next t ∧ t.result = some r ∧
      r.value = some d013045 ∧ d013045 ≠ Z) ∧
    ∃ t r, exec (.buf (frameBuffer sr1200 #v[73, 48, 48, 48, 48, 48, 48, 64, 10] 10 2)) openState = .next t ∧
      openState.h = ⟨Z, Z, Z⟩ ∧ t.result = some r ∧ r.value = some Z :=
  ⟨⟨{ openState with
        h := ⟨d013045, d013045, d013045⟩
        result := some ⟨.ok, ⟨false, false, false, false, true⟩, some d013045⟩ }, _, rfl, rfl, rfl, by decide⟩,
    ⟨{ openState with result := some ⟨.ok, ⟨true, false, false, false, false⟩, some Z⟩ }, _, rfl, rfl, rfl, rfl⟩⟩

theorem witness_FirstEventAfterReset :
    ∃ t r, exec (.gate true) (State.resetAt sr1200) = .next openState ∧ exec (.buf p1) openState = .next t ∧
      t.result = some r ∧ r.value = some d013045 :=
  ⟨p1After, _, rfl, rfl, rfl, rfl⟩

/-- P1 three times over. -/
theorem witness_ThreeValuesFillHistory :
    ∃ t1 t2 t3, exec (.buf p1) openState = .next t1 ∧ reported t1 = some d013045 ∧
      exec (.buf p1) t1 = .next t2 ∧ reported t2 = some d013045 ∧
      exec (.buf p1) t2 = .next t3 ∧ reported t3 = some d013045 :=
  ⟨p1After,
    { openState with h := ⟨d013045, d013045, Z⟩, result := some ⟨.ok, Events.none, some d013045⟩ },
    { openState with
      h := ⟨d013045, d013045, d013045⟩
      result := some ⟨.ok, ⟨false, false, false, false, true⟩, some d013045⟩ },
    rfl, rfl, rfl, rfl, rfl, rfl⟩

/-- The rate with one sample a bit period, and the least of the others. -/
theorem witness_FrameOnIdealLineDecodes :
    RateRecovers openState.tpbQ ∧ RateRecovers ⟨2400, by decide⟩ ∧ 10 ≤ 10 ∧ openState.g = true :=
  ⟨.inl rfl, .inr (by decide), by decide, rfl⟩

theorem witness_EveryHistoryReachable : RateRecovers sr44100 ∧ HistoryOk ⟨d013045, d999999, Z⟩ :=
  ⟨.inr (by decide), by unfold HistoryOk; decide⟩

theorem witness_StepRunsDecodedCommand :
    decode .cw (openState.withFetchWord 8 2).port = .ok (.gate false, []) := rfl

theorem witness_StepWithoutCommandIsIdle : State.reset.port = [] := rfl

theorem witness_StepKeepsInvariant :
    Inv openState ∧ step { openState with port := encode (.gate false) } = .next (openState.setGate false) := by
  refine ⟨⟨by unfold HistoryOk; decide, rfl, ?_⟩, rfl⟩
  intro r h
  cases h

theorem witness_EveryInstructionKeepsDigits :
    HistoryOk (atStage (.atPush d013045)).h ∧ StageOk (.atPush d013045) ∧
    ∃ t, exec .push (atStage (.atPush d013045)) = .next t :=
  ⟨by unfold HistoryOk; decide, by unfold StageOk; decide, _, rfl⟩

/-- A skipped BUF, which no clause of the statement excludes, and an operation. -/
theorem witness_OnlyNamedWriters :
    (∃ t, exec (.buf p1) State.reset = .next t ∧ reported t = none) ∧
    ∃ t, exec .phase (atStage (.atPhase d013045)) = .next t :=
  ⟨⟨_, rfl, rfl⟩, ⟨_, rfl⟩⟩

/-- Both clauses: the reserved word, and a port that ends inside a word. -/
theorem witness_StepRefusals :
    step (openState.withFetchWord 8 6) = .refused .reservedCommand ∧
    step (openState.withPort [true]) = .refused .portIncomplete := ⟨rfl, rfl⟩

theorem witness_OperationsOnlyInsideBuf : Instr.sample.format = .op ∧ State.reset.stage = .idle := ⟨rfl, rfl⟩

/-- The empty buffer and P1's, and the one length that no longer fits. -/
theorem witness_BufOperandBitIgnored :
    lengthFits [] = true ∧ lengthFits p1 = true ∧ ∀ smp : List Sample, smp.length = 2 ^ 32 → lengthFits smp = false :=
  ⟨by decide, by decide, fun _ h => wellFormed_too_long h⟩

theorem witness_DecodeAfterEncode : (Instr.buf p1).wellFormed = true := by decide

/-- Both clauses: a Result with a value and one without. -/
theorem witness_ResultRecordLayout :
    (Result.decoded d013045 starting).value = some d013045 ∧ (Result.missed .noSync).value = none := ⟨rfl, rfl⟩

end Sys2Proof.Tests
end

section
/-! PROOFS. SAMPLE: the meaning of the instruction, its bits by index, and the statement of R95. -/

namespace Sys2Proof.Proofs.Sampler

open Machine

theorem exec_sample (s : State) : exec .sample s = execSample s := rfl

theorem exec_sample_at {s : State} {smp : List Sample} (h : s.stage = .atSample smp) :
    exec .sample s = .next { s with stage := .atSync (sampleAll smp) } :=
  (exec_sample s).trans (execSample_at h)

theorem getElem?_sampleAll (smp : List Sample) (i : Nat) : (sampleAll smp)[i]? = smp[i]?.map sampleBit :=
  List.getElem?_map

/-- Settles O14: the bits are `sampleAll` of the buffer, which has the buffer's length and is `sampleBit` at each index. -/
theorem sampleOperation : Obligations.SampleOperation := by
  intro s smp hs
  refine ⟨sampleAll smp, exec_sample_at hs, length_sampleAll smp, fun i x hx => ?_⟩
  calc (sampleAll smp)[i]?
    _ = smp[i]?.map sampleBit := getElem?_sampleAll smp i
    _ = some (decide (x.toInt < 0)) := by rw [hx]; rfl

end Sys2Proof.Proofs.Sampler
end

section
/-! PROOFS. RLE: the scan of R111 resumed from its last run, and the statement of its step. -/

namespace Sys2Proof.Proofs.Compressor

open Machine

/-- After any prefix the scan of R111 has finished some runs and is counting one more, and whatever follows only goes on
from that one: this is what turns the head recursion of `rleFrom` into a step at the end of the sequence. -/
theorem rleFrom_append (cur : Run) (bits : List Bit) :
    ∃ (done : List Run) (last : Run), ∀ more, rleFrom cur (bits ++ more) = done ++ rleFrom last more := by
  induction bits generalizing cur with
  | nil => exact ⟨[], cur, fun _ => rfl⟩
  | cons b bits ih =>
    by_cases h : b = cur.bit
    · subst h
      obtain ⟨done, last, hrest⟩ := ih ⟨cur.bit, cur.len + 1, Nat.succ_pos _⟩
      exact ⟨done, last, fun more => (rleFrom_same cur (bits ++ more)).trans (hrest more)⟩
    · obtain ⟨done, last, hrest⟩ := ih ⟨b, 1, Nat.one_pos⟩
      refine ⟨cur :: done, last, fun more => ?_⟩
      calc rleFrom cur (b :: (bits ++ more))
        _ = cur :: rleFrom ⟨b, 1, Nat.one_pos⟩ (bits ++ more) := rleFrom_change h _
        _ = cur :: done ++ rleFrom last more := by rw [hrest more, List.cons_append]

/-- RLE of a sequence that is not empty ends in the run a further bit is compared with. -/
theorem rleRuns_append_bit (x : Bit) (bits : List Bit) :
    ∃ (done : List Run) (last : Run), rleRuns (x :: bits) = done ++ [last] ∧
      ∀ b, rleRuns (x :: bits ++ [b]) = done ++ rleFrom last [b] := by
  obtain ⟨done, last, hscan⟩ := rleFrom_append ⟨x, 1, Nat.one_pos⟩ bits
  refine ⟨done, last, ?_, fun b => hscan [b]⟩
  simpa [rleRuns_cons] using hscan []

/-- Settles O23: the run that is last in `rleRuns X` is the one the new bit is compared with; without one, `X` is empty. -/
theorem rleMergesOrStartsRun : Obligations.RleMergesOrStartsRun := by
  refine ⟨rleRuns_nil, fun X b => ?_⟩
  cases X with
  | nil => exact ⟨fun r hr => by simp at hr, fun _ => rfl⟩
  | cons x bits =>
    obtain ⟨done, last, hruns, hstep⟩ := rleRuns_append_bit x bits
    have hlast : (rleRuns (x :: bits)).getLast? = some last := by rw [hruns, List.getLast?_concat]
    rw [hlast, hstep b, hruns, List.dropLast_concat]
    refine ⟨?_, fun hne => ?_⟩
    · rintro r ⟨⟩ rfl
      rw [rleFrom_same, rleFrom_nil]
    · rw [rleFrom_change (hne last rfl).symm, rleFrom_nil, List.append_assoc, List.singleton_append]

end Sys2Proof.Proofs.Compressor
end

section
/-! PROOFS. CLKREC: each run alone in the stream (R124), and the round trip of RLE at one sample a bit (R125). -/

namespace Sys2Proof.Proofs.ClockRecovery

open Machine

theorem recoverClock_append (sr : SampleRate) (before after : List Run) :
    recoverClock sr (before ++ after) = recoverClock sr before ++ recoverClock sr after :=
  List.flatMap_append

theorem recoverClock_singleton (sr : SampleRate) (r : Run) :
    recoverClock sr [r] = List.replicate (reps sr r.len) r.bit := by
  rw [recoverClock_cons, recoverClock_nil, List.append_nil]

/-- R122 with the instance's tie rule and baud rate put in. -/
theorem reps_eq (sr : SampleRate) (len : Nat) : reps sr len = (2400 * len + sr.hz) / (2 * sr.hz) := rfl

/-- At one sample a bit every length is a whole number of bits, and nothing is rounded (R125). -/
theorem reps_unitRate {sr : SampleRate} (hsr : sr.hz = 1200) (len : Nat) : reps sr len = len := by
  rw [reps_eq, hsr]
  omega

/-- Where every count is the run's own length, CLKREC is the expansion that undoes RLE. -/
theorem recoverClock_unitRate {sr : SampleRate} (hsr : sr.hz = 1200) (runs : List Run) :
    recoverClock sr runs = writeOut runs := by
  simp only [recoverClock, writeOut, reps_unitRate hsr]

@[simp] theorem writeOut_nil : writeOut [] = [] := rfl

theorem writeOut_cons (r : Run) (runs : List Run) :
    writeOut (r :: runs) = List.replicate r.len r.bit ++ writeOut runs :=
  List.flatMap_cons

/-- The scan of R111 loses nothing: the bits counted so far and those still to come. -/
theorem writeOut_rleFrom (cur : Run) (bits : List Bit) :
    writeOut (rleFrom cur bits) = List.replicate cur.len cur.bit ++ bits := by
  induction bits generalizing cur with
  | nil => rw [rleFrom_nil, writeOut_cons, writeOut_nil]
  | cons b bits ih =>
    by_cases h : b = cur.bit
    · subst h
      rw [rleFrom_same, ih, List.replicate_succ', List.append_assoc, List.singleton_append]
    · rw [rleFrom_change h, writeOut_cons, ih, List.replicate_one, List.singleton_append]

/-- Compression followed by expansion (R112). -/
theorem writeOut_rleRuns (X : List Bit) : writeOut (rleRuns X) = X := by
  cases X with
  | nil => rfl
  | cons b bits => exact writeOut_rleFrom ⟨b, 1, Nat.one_pos⟩ bits

/-- Settles O30: at 1200 samples a second CLKREC only writes the runs out, which gives RLE's input back. -/
theorem roundTripAtUnitRate : Obligations.RoundTripAtUnitRate := by
  refine fun sr hsr => ⟨reps_unitRate hsr, fun X => ?_⟩
  calc recoverClock sr (rleRuns X)
    _ = writeOut (rleRuns X) := recoverClock_unitRate hsr _
    _ = X := writeOut_rleRuns X

/-- Settles O29: the stream of a list of runs is cut at any run, and a run alone gives `reps` copies of its bit. -/
theorem runsRoundedAlone : Obligations.RunsRoundedAlone := by
  refine fun sr before after r => ⟨?_, reps sr r.len, recoverClock_singleton sr r⟩
  calc recoverClock sr (before ++ r :: after)
    _ = recoverClock sr (before ++ [r] ++ after) := by rw [List.append_assoc, List.singleton_append]
    _ = recoverClock sr before ++ recoverClock sr [r] ++ recoverClock sr after := by
      rw [recoverClock_append, recoverClock_append]

end Sys2Proof.Proofs.ClockRecovery
end

section
/-! PROOFS. EXTRACT: the meaning of the instruction on a short stream and on one long enough, the bytes of the Packet as
numbers, and the statements of R131 and R132. -/

namespace Sys2Proof.Proofs.ByteExtractor

open Machine

theorem exec_extract (s : State) : exec .extract s = execExtract s := rfl

theorem exec_extract_short {s : State} {stream : List Bit} (h : s.stage = .atExtract stream)
    (hlen : stream.length < 89) :
    exec .extract s = .next { s with stage := .idle, result := some ⟨.truncated, Events.none, none⟩ } :=
  (exec_extract s).trans (execExtract_none h (extractPacket_short hlen))

theorem exec_extract_long {s : State} {stream : List Bit} (h : s.stage = .atExtract stream)
    (hlen : 89 ≤ stream.length) :
    exec .extract s = .next { s with stage := .atValidate (packetOf (stream.drop 1)) } :=
  (exec_extract s).trans (execExtract_some h (extractPacket_long hlen))

/-- Settles O31: the two answers of EXTRACT, with the boundary of 88 bits after the dropped one put as 89 bits in all. -/
theorem extractTruncation : Obligations.ExtractTruncation := by
  refine fun s stream hs => ⟨?_, exec_extract_short hs, fun hlen => ⟨_, exec_extract_long hs hlen⟩⟩
  rw [List.length_drop]
  omega

/-- `n` bits weighted `2^i` stay below `2^n`, so the eight of a byte lose nothing in the register. -/
theorem sum_weightedBits_lt (f : Nat → Bit) (n : Nat) :
    ((List.range n).map fun i => 2 ^ i * (f i).toNat).sum < 2 ^ n := by
  induction n with
  | zero => exact Nat.one_pos
  | succ n ih =>
    have hbit : 2 ^ n * (f n).toNat ≤ 2 ^ n * 1 := Nat.mul_le_mul_left _ (Bool.toNat_le (f n))
    rw [List.range_succ, List.map_append, List.sum_append, List.map_singleton, List.sum_singleton, Nat.pow_succ]
    omega

theorem toNat_byteAt (S : List Bit) (k : Nat) :
    (byteAt S k).toNat = ((List.range 8).map fun i => 2 ^ i * (S.getD (10 * k + i) false).toNat).sum :=
  (BitVec.toNat_ofNat _ 8).trans (Nat.mod_eq_of_lt (sum_weightedBits_lt _ 8))

/-- Settles O32: the Packet is `packetOf` of the stream less its first bit, whose byte `k` is `byteAt`; the sum of
`toNat_byteAt` is then written out term by term. -/
theorem extractBytes : Obligations.ExtractBytes := by
  refine fun s stream hs hlen => ⟨_, exec_extract_long hs hlen, fun k hk => ?_⟩
  rw [packetOf_get _ k hk, toNat_byteAt]
  simp [List.range_succ, Nat.add_assoc]

end Sys2Proof.Proofs.ByteExtractor
end

section
/-! PROOFS. VALIDATE: the model's windows tied to the bytes of the Packet, the search of R141 over the four offsets, the
characters of the value (R142, R74), and the statements of R141 and R143. -/

namespace Sys2Proof.Proofs.DigitValidator

open Machine

theorem exec_validate (s : State) : exec .validate s = execValidate s := rfl

theorem exec_validate_some {s : State} {p : Packet} {v : DisplayValue} (h : s.stage = .atValidate p)
    (hv : validatePacket p = some v) : exec .validate s = .next { s with stage := .atPush v } :=
  (exec_validate s).trans (execValidate_some h hv)

theorem exec_validate_none {s : State} {p : Packet} (h : s.stage = .atValidate p) (hn : validatePacket p = none) :
    exec .validate s = .next { s with stage := .idle, result := some ⟨.noDigitMatch, Events.none, none⟩ } :=
  (exec_validate s).trans (execValidate_none h hn)

theorem isDigit_iff (b : Byte) : isDigit b = true ↔ 48 ≤ b.toNat ∧ b.toNat ≤ 57 := decide_eq_true_iff

theorem allDigits_iff (w : Window) : allDigits w = true ↔ ∀ (j : Nat) (hj : j < 6), isDigit w[j] = true := by
  simp only [allDigits, Bool.and_eq_true]
  constructor
  · rintro ⟨⟨⟨⟨⟨h0, h1⟩, h2⟩, h3⟩, h4⟩, h5⟩ j hj
    interval_cases j <;> assumption
  · exact fun h => ⟨⟨⟨⟨⟨h 0 (by decide), h 1 (by decide)⟩, h 2 (by decide)⟩, h 3 (by decide)⟩, h 4 (by decide)⟩,
      h 5 (by decide)⟩

/-- The Packet has a byte at every place of a window, and it is the window's. -/
theorem getElem?_packet (p : Packet) (o : Fin 4) (j : Nat) (hj : j < 6) :
    p[o.val + j]? = some ((window p o)[j]) := by
  rw [window_get p o j hj]
  exact Vector.getElem?_eq_getElem (inPacket o j hj)

/-- The test of one window in the search is the predicate of R141 at its offset. -/
theorem allDigits_window_iff (p : Packet) (o : Fin 4) : allDigits (window p o) = true ↔ DigitsFrom p o := by
  rw [allDigits_iff]
  refine forall₂_congr fun j hj => ?_
  simp [getElem?_packet p o j hj, isDigit_iff]

theorem offsets_getElem (i : Nat) (hi : i < Config.OFFSETS.length) : Config.OFFSETS[i].val = i := by
  have : i < 4 := hi
  interval_cases i <;> rfl

/-- The search takes a window of digits that no window at a lower offset comes before (R141, R144). -/
theorem validatePacket_first {p : Packet} {o : Fin 4} (hdigits : DigitsFrom p o)
    (hfirst : ∀ o' < o.val, ¬ DigitsFrom p o') : validatePacket p = some (displayOf (window p o)) := by
  refine Option.map_eq_some_iff.2 ⟨o, List.find?_eq_some_iff_getElem.2 ⟨?_, o.val, o.isLt, ?_, fun i hi => ?_⟩, rfl⟩
  · exact (allDigits_window_iff p o).2 hdigits
  · exact Fin.ext (offsets_getElem o.val o.isLt)
  · rw [Bool.not_eq_true', ← Bool.not_eq_true, allDigits_window_iff, offsets_getElem]
    exact hfirst i hi

/-- The search fails where all four windows fail. -/
theorem validatePacket_eq_none {p : Packet} (h : ∀ o : Fin 4, ¬ DigitsFrom p o) : validatePacket p = none :=
  Option.map_eq_none_iff.2 <| List.find?_eq_none.2 fun o _ hd => h o ((allDigits_window_iff p o).1 hd)

/-- Character `j` of the register is byte `j` of the window (30_encoding.md R74): the bytes after it stand below it and
are shifted out, and what is then lowest is the byte itself. -/
theorem charAt_displayOf (w : Window) (j : Nat) (hj : j < 6) : charAt (displayOf w) j = w[j] := by
  simp only [charAt, displayOf]
  interval_cases j
  all_goals repeat rw [BitVec.extractLsb'_append_eq_of_le (by decide)]
  · exact BitVec.extractLsb'_eq_self
  all_goals exact BitVec.extractLsb'_append_eq_right

/-- Settles O34: the value is the register of the window at `o`, and that window's bytes are the Packet's from `o` on. -/
theorem validateTakesFirstWindow : Obligations.ValidateTakesFirstWindow := by
  intro s p n hs hn hdigits hfirst
  obtain ⟨o, rfl⟩ : ∃ o : Fin 4, o.val = n := ⟨⟨n, Nat.lt_succ_of_le hn⟩, rfl⟩
  refine ⟨displayOf (window p o), exec_validate_some hs (validatePacket_first hdigits hfirst), fun j hj => ?_⟩
  rw [charAt_displayOf _ j hj, getElem?_packet p o j hj]

/-- Settles O35: with no window of digits the search fails, and VALIDATE misses. -/
theorem validateNoMatch : Obligations.ValidateNoMatch :=
  fun _ _ hs hno => exec_validate_none hs (validatePacket_eq_none fun o => hno o (Nat.le_of_lt_succ o.isLt))

end Sys2Proof.Proofs.DigitValidator
end

section
/-! PROOFS. PHASE: each predicate of the history as the comparisons of its rule (R152 to R156), and the statement of what
the instruction answers. -/

namespace Sys2Proof.Proofs.Phase

open Machine

@[simp] theorem phaseZero_iff (h : History) : phaseZero h = true ↔ h.s0 = Z ∧ h.s1 = Z ∧ h.s2 = Z :=
  decide_eq_true_iff

@[simp] theorem phaseReset_iff (h : History) : phaseReset h = true ↔ h.s0 = Z ∧ h.s1 ≠ Z := decide_eq_true_iff

@[simp] theorem phaseStarting_iff (h : History) : phaseStarting h = true ↔ h.s0 ≠ Z ∧ h.s1 = Z :=
  decide_eq_true_iff

@[simp] theorem phaseRunning_iff (h : History) :
    phaseRunning h = true ↔ h.s0 ≠ Z ∧ h.s1 ≠ Z ∧ h.s0 ≠ h.s1 := decide_eq_true_iff

@[simp] theorem phaseStopped_iff (h : History) :
    phaseStopped h = true ↔ h.s0 = h.s1 ∧ h.s1 = h.s2 ∧ h.s0 ≠ Z := decide_eq_true_iff

theorem exec_phase (s : State) : exec .phase s = execPhase s := rfl

theorem exec_phase_at {s : State} {v : DisplayValue} (h : s.stage = .atPhase v) :
    exec .phase s = .next { s with stage := .atReturn v (phaseEvents s.h) } :=
  (exec_phase s).trans (execPhase_at h)

/-- Settles O39: EV is `phaseEvents` of the history, whose bits are the five predicates. -/
theorem phaseOperation : Obligations.PhaseOperation := fun s _ hs =>
  ⟨phaseEvents s.h, exec_phase_at hs, phaseZero_iff s.h, phaseReset_iff s.h, phaseStarting_iff s.h,
    phaseRunning_iff s.h, phaseStopped_iff s.h⟩

end Sys2Proof.Proofs.Phase
end

section
/-! PROOFS. The phase predicates together: the seven rows of R160 as sets of events, and the statements of R158, R159
and R160 read off them. -/

namespace Sys2Proof.Proofs.PhaseTable

open Machine

/-- The events of the seven rows of 46_phase.md R160, chosen by five comparisons. -/
def eventRow (h : History) : Events :=
  if h.s0 = Z then
    if h.s1 = Z then (if h.s2 = Z then ⟨true, false, false, false, false⟩ else Events.none)
    else ⟨false, true, false, false, false⟩
  else if h.s1 = Z then ⟨false, false, true, false, false⟩
  else if h.s0 ≠ h.s1 then ⟨false, false, false, true, false⟩
  else if h.s1 = h.s2 then ⟨false, false, false, false, true⟩ else Events.none

theorem phaseEvents_eq_eventRow (h : History) : phaseEvents h = eventRow h := by
  simp only [phaseEvents, phaseZero, phaseReset, phaseStarting, phaseRunning, phaseStopped, eventRow]
  by_cases h0 : h.s0 = Z
  · by_cases h1 : h.s1 = Z
    · by_cases h2 : h.s2 = Z <;> simp [h0, h1, h2, Events.none]
    · simp [h0, h1]
  · by_cases h1 : h.s1 = Z
    · simp [h0, h1]
    · by_cases h01 : h.s0 = h.s1
      · by_cases h12 : h.s1 = h.s2
        · simp [h0, ← h01, ← h12]
        · simp [h1, h01, h12, Events.none]
      · simp [h0, h1, h01]

/-- Settles O40: every row of the table sets one event or none. -/
theorem phasesAreExclusive : Obligations.PhasesAreExclusive := by
  intro h
  rw [phaseEvents_eq_eventRow, eventRow, AtMostOneEvent]
  split_ifs <;> decide

/-- Settles O41: the rows without an event are the third comparison failing under `s0 = s1 = Z`, and the last one under
`s0 = s1 ≠ Z`. -/
theorem quietStacks : Obligations.QuietStacks := by
  intro h
  rw [phaseEvents_eq_eventRow, eventRow]
  split_ifs with h0 h1 h2 h1 h01 h12
  · simp [Events.none, h0, h1, h2]
  · simp [h0, h1, h2]
  · simp [Events.none, h0, h1]
  · simp [Events.none, h0, h1, Ne.symm h0]
  · simp [Events.none, h0, h1, Ne.symm h01]
  · simp [Events.none, h0, h12]
  · simp [h1, not_not.1 h01, Ne.symm h12]

/-- Settles O42: EV of each row is its entry in the table. -/
theorem phaseLookupTable : Obligations.PhaseLookupTable := by
  intro h
  rw [phaseEvents_eq_eventRow, eventRow]
  split_ifs <;> rfl

end Sys2Proof.Proofs.PhaseTable
end

section
/-! PROOFS. What EXTRACT reads of a stream, the layout of a DisplayValue register, and what VALIDATE lets through: the
statements of R133, R74 and R145. -/

namespace Sys2Proof.Proofs.PacketValues

open Machine Proofs.DigitValidator

/-- A byte of the Packet is made of the ten-spaced positions `10*k` to `10*k + 7` and of no other. -/
theorem byteAt_congr {S S' : List Bit} {k : Nat} (h : ∀ i < 8, S[10 * k + i]? = S'[10 * k + i]?) :
    byteAt S k = byteAt S' k := by
  have hbits : ∀ i ∈ List.range Config.DATA_BITS,
      2 ^ i * (streamBit S (Config.SLOT * k + i)).toNat = 2 ^ i * (streamBit S' (Config.SLOT * k + i)).toNat := by
    intro i hi
    rw [streamBit, streamBit, List.getD_eq_getElem?_getD, List.getD_eq_getElem?_getD, h i (List.mem_range.1 hi)]
  rw [byteAt, byteAt, List.map_congr_left hbits]

theorem packetOf_congr {S S' : List Bit} (h : ∀ k < 9, ∀ i < 8, S[10 * k + i]? = S'[10 * k + i]?) :
    packetOf S = packetOf S' := by
  refine Vector.ext fun k hk => ?_
  rw [packetOf_get S k hk, packetOf_get S' k hk, byteAt_congr (h k hk)]

/-- Settles O33: offset `10*k + i` after the dropped bit is stream position `1 + 10*k + i`. -/
theorem extractIgnoresFraming : Obligations.ExtractIgnoresFraming := by
  intro stream stream' hlen hlen' hread
  rw [extractPacket_long hlen, extractPacket_long hlen']
  refine congrArg some (packetOf_congr fun k hk i hi => ?_)
  rw [List.getElem?_drop, List.getElem?_drop]
  exact hread _ ⟨k, i, hk, hi, (Nat.add_assoc 1 (10 * k) i).symm⟩

/-- Six characters are all a register holds: bit `b` is bit `b % 8` of character `5 - b / 8`. -/
theorem eq_of_charAt_eq {v v' : DisplayValue} (h : ∀ j < 6, charAt v j = charAt v' j) : v = v' := by
  refine BitVec.eq_of_getLsbD_eq fun b hb => ?_
  have hbit := congrArg (fun c => c.getLsbD (b % 8)) (h (5 - b / 8) (by omega))
  have hb48 : b < 48 := hb
  have hlow : b % 8 < 8 := Nat.mod_lt b (by decide)
  have hplace : 40 - 8 * (5 - b / 8) + b % 8 = b := by omega
  simpa [charAt, hlow, hplace] using hbit

/-- Settles O36: `charAt` undoes `displayOf`, its ends are the two slices, and it determines the register. -/
theorem displayLayout : Obligations.DisplayLayout :=
  ⟨charAt_displayOf, fun _ => ⟨rfl, rfl⟩, fun _ _ => eq_of_charAt_eq⟩

theorem isDisplayValue_iff (v : DisplayValue) :
    isDisplayValue v = true ↔ ∀ j < 6, isDigit (charAt v j) = true := by
  simp [isDisplayValue]

/-- The register of a window of digits holds six digit characters. -/
theorem isDisplayValue_displayOf {w : Window} (h : allDigits w = true) : isDisplayValue (displayOf w) = true := by
  refine (isDisplayValue_iff _).2 fun j hj => ?_
  rw [charAt_displayOf w j hj]
  exact (allDigits_iff w).1 h j hj

/-- Settles O37: VALIDATE answers only the register of a window that passed the digit test. -/
theorem validateYieldsDigits : Obligations.ValidateYieldsDigits := by
  intro p v h
  obtain ⟨o, -, hdigits, rfl⟩ := validatePacket_some h
  exact isDisplayValue_displayOf hdigits

end Sys2Proof.Proofs.PacketValues
end

section
/-! PROOFS. SYNC as a search for the first marker: the scan of R101 followed bit by bit (R103, R106), and the buffers in
which it finds nothing. -/

namespace Sys2Proof.Proofs.Synchronizer

open Machine

/-- Settles O18: both sides of the test multiplied out, and `T` as the quotient of the division by 400. -/
theorem idleTestIsExact : Obligations.IdleTestIsExact := by
  intro sr c
  have hexact : exceeds sr c = true ↔ 400 * c > 3 * sr.hz := by
    rw [exceeds, decide_eq_true_iff, Config.BAUD, Config.IDLE_PERIODS]
    omega
  refine ⟨hexact, hexact.trans ?_⟩
  unfold idleThreshold
  omega

theorem exceeds_iff (sr : SampleRate) (c : Nat) : exceeds sr c = true ↔ idleThreshold sr ≤ c :=
  (idleTestIsExact sr c).2

@[simp] theorem exceeds_zero (sr : SampleRate) : exceeds sr 0 = false := by
  rw [← Bool.not_eq_true, exceeds_iff, idleThreshold]
  omega

/-- WAIT, once set, stays set while marks go on: a longer run of marks passes the test too. -/
theorem exceeds_or_succ (sr : SampleRate) (c : Nat) : (exceeds sr c || exceeds sr (c + 1)) = exceeds sr (c + 1) := by
  rw [Bool.eq_iff_iff, Bool.or_eq_true, exceeds_iff, exceeds_iff]
  omega

/-- The answer `o` names the least marker of `X`, or there is none. -/
def FirstMarker (T : Nat) (X : List Bit) : Option Nat → Prop
  | some k => MarkerAt T X k ∧ ∀ j < k, ¬ MarkerAt T X j
  | none => ∀ k, ¬ MarkerAt T X k

/-- A marker is a space, so none stands inside a run of marks at the front. -/
theorem not_markerAt_of_lt {T n k : Nat} (X : List Bit) (hk : k < n) : ¬ MarkerAt T (List.replicate n true ++ X) k := by
  rintro ⟨-, hspace, -⟩
  rw [List.getElem?_append_left (by simpa using hk), List.getElem?_replicate_of_lt hk] at hspace
  cases hspace

theorem firstMarker_marks (T n : Nat) : FirstMarker T (List.replicate n true) none := by
  rintro k ⟨-, hspace, -⟩
  have := List.mem_of_getElem? hspace
  simp at this

/-- Enough marks and a space: the marker is that space. -/
theorem firstMarker_space_waiting {T n : Nat} (h : T ≤ n) (X : List Bit) :
    FirstMarker T (List.replicate n true ++ false :: X) (some n) := by
  refine ⟨⟨h, by simp, fun j _ hj => ?_⟩, fun j => not_markerAt_of_lt _⟩
  rw [List.getElem?_append_left (by simpa using hj), List.getElem?_replicate_of_lt hj]

/-- A space after too few marks is no marker and no marker's marks reach back over it, so what follows it is searched
alone. -/
theorem markerAt_iff_after_space {T n : Nat} (h : n < T) (X : List Bit) (k : Nat) :
    MarkerAt T (List.replicate n true ++ false :: X) k ↔ ∃ j, k = n + 1 + j ∧ MarkerAt T X j := by
  have hafter (j : Nat) : (List.replicate n true ++ false :: X)[n + 1 + j]? = X[j]? := by
    rw [List.getElem?_append_right (by simp; omega), List.length_replicate,
      show n + 1 + j - n = j + 1 by omega, List.getElem?_cons_succ]
  constructor
  · rintro ⟨hTk, hspace, hmarks⟩
    have hspace_n : (List.replicate n true ++ false :: X)[n]? = some false := by simp
    have hreach : n < k - T := by
      by_contra hle
      exact absurd ((hmarks n (by omega) (by omega)).symm.trans hspace_n) (by decide)
    obtain ⟨j, rfl⟩ := Nat.exists_eq_add_of_le (show n + 1 ≤ k by omega)
    refine ⟨j, rfl, by omega, (hafter j).symm.trans hspace, fun i hi hij => ?_⟩
    rw [← hafter i]
    exact hmarks _ (by omega) (by omega)
  · rintro ⟨j, rfl, hTj, hspace, hmarks⟩
    refine ⟨by omega, (hafter j).trans hspace, fun i hi hij => ?_⟩
    obtain ⟨i, rfl⟩ := Nat.exists_eq_add_of_le (show n + 1 ≤ i by omega)
    rw [hafter i]
    exact hmarks i (by omega) (by omega)

theorem firstMarker_space_not_waiting {T n : Nat} (h : n < T) {X : List Bit} {o : Option Nat}
    (hX : FirstMarker T X o) : FirstMarker T (List.replicate n true ++ false :: X) (o.map (n + 1 + ·)) := by
  have hiff := markerAt_iff_after_space h X
  cases o with
  | none =>
    intro k hk
    obtain ⟨j, -, hj⟩ := (hiff k).1 hk
    exact hX j hj
  | some k =>
    refine ⟨(hiff _).2 ⟨k, rfl, hX.1⟩, fun i hi hmark => ?_⟩
    obtain ⟨j, rfl, hj⟩ := (hiff i).1 hmark
    exact hX.2 j (by simpa using hi) hj

theorem idleThreshold_pos (sr : SampleRate) : 0 < idleThreshold sr := Nat.succ_pos _

/-- The scan with `CNT = cnt` and the WAIT that this count gives finds the first marker of the bits to come with `cnt`
marks put before them. -/
theorem syncScan_firstMarker (sr : SampleRate) (i cnt : Nat) (bits : List Bit) :
    ∃ o : Option Nat, syncScan sr i cnt (exceeds sr cnt) bits = o.map (i + ·) ∧
      FirstMarker (idleThreshold sr) (List.replicate cnt true ++ bits) (o.map (cnt + ·)) := by
  induction bits generalizing i cnt with
  | nil => exact ⟨none, rfl, by simpa using firstMarker_marks _ cnt⟩
  | cons b bits ih =>
    cases b with
    | true =>
      obtain ⟨o, hscan, hfirst⟩ := ih (i + 1) (cnt + 1)
      refine ⟨o.map (1 + ·), ?_, ?_⟩
      · rw [syncScan_mark, exceeds_or_succ, hscan, Option.map_map]
        simp only [Function.comp_def, Nat.add_assoc]
      · rw [List.replicate_succ', List.append_assoc, List.singleton_append] at hfirst
        simpa only [Option.map_map, Function.comp_def, Nat.add_assoc] using hfirst
    | false =>
      cases hwait : exceeds sr cnt with
      | true => exact ⟨some 0, rfl, firstMarker_space_waiting ((exceeds_iff sr cnt).1 hwait) bits⟩
      | false =>
        obtain ⟨o, hscan, hfirst⟩ := ih (i + 1) 0
        rw [exceeds_zero] at hscan
        have hcnt : cnt < idleThreshold sr := by
          rw [← Nat.not_le, ← exceeds_iff, hwait]
          decide
        refine ⟨o.map (1 + ·), ?_, ?_⟩
        · rw [syncScan_space_not_waiting, hscan, Option.map_map]
          simp only [Function.comp_def, Nat.add_assoc]
        · have hskip := firstMarker_space_not_waiting hcnt hfirst
          simpa [Option.map_map, Function.comp_def, Nat.add_assoc] using hskip

/-- SYNC answers the first marker of the whole sequence. -/
theorem firstMarker_syncStart (sr : SampleRate) (bits : List Bit) :
    FirstMarker (idleThreshold sr) bits (syncStart sr bits) := by
  obtain ⟨o, hscan, hfirst⟩ := syncScan_firstMarker sr 0 0 bits
  rw [exceeds_zero] at hscan
  rw [syncStart, hscan]
  exact hfirst

/-- A sequence has one first marker or none. -/
theorem firstMarker_unique {T : Nat} {X : List Bit} {o o' : Option Nat} (h : FirstMarker T X o)
    (h' : FirstMarker T X o') : o = o' := by
  cases o with
  | none =>
    cases o' with
    | none => rfl
    | some k' => exact absurd h'.1 (h k')
  | some k =>
    cases o' with
    | none => exact absurd h.1 (h' k)
    | some k' =>
      have hle : ¬ k < k' := fun hlt => h'.2 k hlt h.1
      have hge : ¬ k' < k := fun hlt => h.2 k' hlt h'.1
      exact congrArg some (by omega)

theorem syncStart_eq_iff (sr : SampleRate) (bits : List Bit) (o : Option Nat) :
    syncStart sr bits = o ↔ FirstMarker (idleThreshold sr) bits o :=
  ⟨fun h => h ▸ firstMarker_syncStart sr bits, firstMarker_unique (firstMarker_syncStart sr bits)⟩

/-- Settles O19: `FirstMarker` of an index and of none are the two sides of R103 and R104. -/
theorem syncFindsFirstMarker : Obligations.SyncFindsFirstMarker :=
  fun sr bits => ⟨fun k => syncStart_eq_iff sr bits (some k), syncStart_eq_iff sr bits none⟩

/-- SYNC finds a space. -/
theorem getElem?_of_syncStart {sr : SampleRate} {bits : List Bit} {k : Nat} (h : syncStart sr bits = some k) :
    bits[k]? = some false :=
  ((syncStart_eq_iff sr bits (some k)).1 h).1.2.1

/-- The scan has answered before it comes to the bits that follow. -/
theorem syncScan_append {sr : SampleRate} {i cnt k : Nat} {wait : Bit} {bits : List Bit}
    (h : syncScan sr i cnt wait bits = some k) (more : List Bit) : syncScan sr i cnt wait (bits ++ more) = some k := by
  induction bits generalizing i cnt wait with
  | nil => cases h
  | cons b bits ih =>
    cases b with
    | true => exact ih h
    | false =>
      cases wait with
      | true => exact h
      | false => exact ih h

/-- Settles O20: SYNC is the scan from its start values. -/
theorem syncIgnoresLaterBits : Obligations.SyncIgnoresLaterBits := fun _ _ more _ h => syncScan_append h more

/-- A marker needs a mark before it, since `T` is at least 1. -/
theorem syncStart_spaces {sr : SampleRate} {bits : List Bit} (h : ∀ b ∈ bits, b = false) :
    syncStart sr bits = none := by
  refine (syncStart_eq_iff sr bits none).2 ?_
  rintro k ⟨hTk, -, hmarks⟩
  have hT := idleThreshold_pos sr
  have hmark := h true (List.mem_of_getElem? (hmarks (k - 1) (by omega) (by omega)))
  cases hmark

end Sys2Proof.Proofs.Synchronizer
end

section
/-! PROOFS. The runs of RLE are the maximal runs of its input (R112), what they are after a frame start (R114), and the
repeat count of CLKREC as rounding to nearest (R122, R123). -/

namespace Sys2Proof.Proofs.MaximalRuns

open Machine Proofs.ClockRecovery

@[simp] theorem neighboursDiffer_nil : NeighboursDiffer [] := trivial

@[simp] theorem neighboursDiffer_singleton (r : Run) : NeighboursDiffer [r] := trivial

theorem neighboursDiffer_cons_cons (r q : Run) (runs : List Run) :
    NeighboursDiffer (r :: q :: runs) ↔ r.bit ≠ q.bit ∧ NeighboursDiffer (q :: runs) := Iff.rfl

/-- A new run is only begun by another bit (R111). -/
theorem neighboursDiffer_rleFrom (cur : Run) (bits : List Bit) : NeighboursDiffer (rleFrom cur bits) := by
  induction bits generalizing cur with
  | nil => exact neighboursDiffer_singleton cur
  | cons b bits ih =>
    by_cases h : b = cur.bit
    · subst h
      rw [rleFrom_same]
      exact ih _
    · have hrest := ih ⟨b, 1, Nat.one_pos⟩
      obtain ⟨q, runs, hruns, hq⟩ := rleFrom_head ⟨b, 1, Nat.one_pos⟩ bits
      rw [hruns] at hrest
      rw [rleFrom_change h, hruns, neighboursDiffer_cons_cons, hq]
      exact ⟨Ne.symm h, hrest⟩

theorem neighboursDiffer_rleRuns (X : List Bit) : NeighboursDiffer (rleRuns X) := by
  cases X with
  | nil => exact neighboursDiffer_nil
  | cons b bits => exact neighboursDiffer_rleFrom _ bits

theorem length_writeOut (runs : List Run) : (writeOut runs).length = (runs.map Run.len).sum := by
  simp [writeOut, List.length_flatMap]

/-- Copies of the bit being counted only lengthen its run. -/
theorem rleFrom_replicate (cur : Run) (n : Nat) (bits : List Bit) :
    rleFrom cur (List.replicate n cur.bit ++ bits) =
      rleFrom ⟨cur.bit, cur.len + n, Nat.add_pos_left cur.pos n⟩ bits := by
  induction n generalizing cur with
  | zero => rfl
  | succ n ih =>
    rw [List.replicate_succ, List.cons_append, rleFrom_same]
    refine (ih ⟨cur.bit, cur.len + 1, Nat.succ_pos _⟩).trans ?_
    congr 2
    exact Nat.add_right_comm _ _ _

theorem replicate_run (r : Run) : List.replicate r.len r.bit = r.bit :: List.replicate (r.len - 1) r.bit := by
  rw [← List.replicate_succ, Nat.sub_add_cancel r.pos]

/-- A run is counted up from its first bit. -/
theorem rleFrom_one_replicate (r : Run) (bits : List Bit) :
    rleFrom ⟨r.bit, 1, Nat.one_pos⟩ (List.replicate (r.len - 1) r.bit ++ bits) = rleFrom r bits := by
  refine (rleFrom_replicate ⟨r.bit, 1, Nat.one_pos⟩ (r.len - 1) bits).trans ?_
  simp only [Nat.add_sub_cancel' r.pos]

/-- At least one copy of another bit ends the run being counted, and the copies are the next run. -/
theorem rleFrom_change_replicate {cur q : Run} (h : q.bit ≠ cur.bit) (bits : List Bit) :
    rleFrom cur (List.replicate q.len q.bit ++ bits) = cur :: rleFrom q bits := by
  rw [replicate_run, List.cons_append, rleFrom_change h, rleFrom_one_replicate]

theorem rleFrom_writeOut {r : Run} {runs : List Run} (h : NeighboursDiffer (r :: runs)) :
    rleFrom r (writeOut runs) = r :: runs := by
  induction runs generalizing r with
  | nil => rfl
  | cons q runs ih =>
    obtain ⟨hne, hrest⟩ := (neighboursDiffer_cons_cons r q runs).1 h
    rw [writeOut_cons, rleFrom_change_replicate hne.symm, ih hrest]

/-- A whole run at the front is the first one RLE counts. -/
theorem rleRuns_replicate_append (r : Run) (bits : List Bit) :
    rleRuns (List.replicate r.len r.bit ++ bits) = rleFrom r bits := by
  rw [replicate_run, List.cons_append, rleRuns_cons, rleFrom_one_replicate]

/-- RLE undoes the expansion of any runs whose neighbours differ. -/
theorem rleRuns_writeOut {runs : List Run} (h : NeighboursDiffer runs) : rleRuns (writeOut runs) = runs := by
  cases runs with
  | nil => rfl
  | cons r runs => rw [writeOut_cons, rleRuns_replicate_append, rleFrom_writeOut h]

theorem head?_rleRuns (X : List Bit) : (rleRuns X).head?.map Run.bit = X.head? := by
  cases X with
  | nil => rfl
  | cons b bits =>
    obtain ⟨r, runs, hruns, hr⟩ := rleFrom_head ⟨b, 1, Nat.one_pos⟩ bits
    rw [rleRuns_cons, hruns]
    exact congrArg some hr

/-- Settles O24: the lengths add up because the runs written out are the input, and a list of runs is RLE of what it
writes out. -/
theorem rleRunsAreMaximal : Obligations.RleRunsAreMaximal := by
  intro X
  refine ⟨fun r _ => r.pos, neighboursDiffer_rleRuns X, ?_, head?_rleRuns X, writeOut_rleRuns X, ?_⟩
  · rw [← length_writeOut, writeOut_rleRuns]
  · rintro runs hdiffer rfl
    exact (rleRuns_writeOut hdiffer).symm

/-- Settles O25: SYNC's index holds a space, which is the first bit RLE gets. -/
theorem recoveredRunsStartWithSpace : Obligations.RecoveredRunsStartWithSpace := by
  intro sr bits i hsync
  obtain ⟨hi, hspace⟩ := List.getElem?_eq_some_iff.1 (Synchronizer.getElem?_of_syncStart hsync)
  refine ⟨hi, ?_⟩
  rw [List.drop_eq_getElem_cons hi, hspace, rleRuns_cons]
  exact rleFrom_head _ _

/-- Settles O22: at its stage RLE has one answer, and its runs are those of the slice. -/
theorem rleOperation : Obligations.RleOperation := fun _ _ _ hs => execRle_at hs

end Sys2Proof.Proofs.MaximalRuns
end

section
/-! PROOFS. The repeat count of CLKREC: the nearest integer to `L / TPB` (R122), and the runs that vanish (R123). -/

namespace Sys2Proof.Proofs.RepeatCount

open Machine Proofs.ClockRecovery

theorem repsTie_up (sr : SampleRate) (len : Nat) : repsTie .up sr len = reps sr len := rfl

theorem repsTie_down (sr : SampleRate) (len : Nat) :
    repsTie .down sr len = (2400 * len + sr.hz - 1) / (2 * sr.hz) := rfl

/-- A quotient by `2*hz` is `n` between `2*n*hz` and one divisor more. -/
theorem div_two_mul_eq_iff {hz : Nat} (hpos : 0 < hz) (a n : Nat) :
    a / (2 * hz) = n ↔ 2 * n * hz ≤ a ∧ a < 2 * n * hz + 2 * hz := by
  rw [Nat.div_eq_iff (by omega), show n * (2 * hz) = 2 * n * hz by ring]
  omega

theorem reps_eq_iff (sr : SampleRate) (len n : Nat) :
    reps sr len = n ↔ 2 * n * sr.hz ≤ 2400 * len + sr.hz ∧ 2400 * len < (2 * n + 1) * sr.hz := by
  rw [reps_eq, div_two_mul_eq_iff sr.pos, Nat.add_one_mul (2 * n)]
  omega

theorem repsTie_down_eq_iff (sr : SampleRate) (len n : Nat) :
    repsTie .down sr len = n ↔ 2 * n * sr.hz < 2400 * len + sr.hz ∧ 2400 * len ≤ (2 * n + 1) * sr.hz := by
  have hpos := sr.pos
  rw [repsTie_down, div_two_mul_eq_iff sr.pos, Nat.add_one_mul (2 * n)]
  omega

/-- Settles O27: the two rules differ only in which end of the interval they hold, and the ends are the exact halves. -/
theorem repsRoundsToNearest : Obligations.RepsRoundsToNearest := by
  intro sr len
  refine ⟨reps_eq sr len, reps_eq_iff sr len, fun tie n hn => ?_, fun hhalf => ?_⟩
  · cases tie with
    | up =>
      obtain ⟨hlow, hhigh⟩ := (reps_eq_iff sr len n).1 hn
      exact ⟨hlow, hhigh.le⟩
    | down =>
      obtain ⟨hlow, hhigh⟩ := (repsTie_down_eq_iff sr len n).1 hn
      exact ⟨hlow.le, hhigh⟩
  · obtain ⟨hlow, hhigh⟩ := (repsTie_down_eq_iff sr len _).1 rfl
    rw [repsTie_up]
    exact (reps_eq_iff sr len _).2 ⟨hlow.le, lt_of_le_of_ne hhigh (hhalf _)⟩

theorem reps_eq_zero_iff (sr : SampleRate) (len : Nat) : reps sr len = 0 ↔ 2400 * len < sr.hz := by
  rw [reps_eq_iff]
  omega

/-- Settles O28: a count of 0 writes nothing, and the streams on both sides are joined. -/
theorem shortRunVanishes : Obligations.ShortRunVanishes := by
  refine fun sr r => ⟨reps_eq_zero_iff sr r.len, fun hshort before after => ?_⟩
  rw [recoverClock_append, recoverClock_cons, (reps_eq_zero_iff sr r.len).2 hshort, List.replicate_zero,
    List.nil_append]

/-- Settles O26: at its stage CLKREC has one answer, and `recoverClock` is the join of the statement. -/
theorem clkrecOperation : Obligations.ClkrecOperation := fun _ _ hs => execClkrec_at hs

end Sys2Proof.Proofs.RepeatCount
end

section
/-! PROOFS. The BUF command as one equation: what its samples decide (the first exit that applies, or a value) and what
the state then becomes; and the statements of R174 to R179, R161, R162 and R224 that follow from it. -/

namespace Sys2Proof.Proofs.BufCommand

open Machine

/-- STREAM of a buffer whose frame starts at index `i` (47_commands.md R174). -/
abbrev streamFrom (sr : SampleRate) (smp : List Sample) (i : Nat) : List Bit :=
  recoverClock sr (rleRuns ((sampleAll smp).drop i))

/-- The value that the samples give, or the first of the three misses that applies (47_commands.md R174, R176). -/
def decodeSamples (sr : SampleRate) (smp : List Sample) : Except BufOutcome DisplayValue :=
  match syncStart sr (sampleAll smp) with
  | none => .error .noSync
  | some i =>
    match extractPacket (streamFrom sr smp i) with
    | none => .error .truncated
    | some p =>
      match validatePacket p with
      | none => .error .noDigitMatch
      | some v => .ok v

/-- `decodeSamples` behind the gate test (47_commands.md R175). -/
def bufVerdict (g : Bit) (sr : SampleRate) (smp : List Sample) : Except BufOutcome DisplayValue :=
  if g then decodeSamples sr smp else .error .gated

/-- The state a BUF command leaves, by what its samples decided. -/
def conclude (s : State) : Except BufOutcome DisplayValue → State
  | .error o => s.miss o
  | .ok v => (s.pushValue v).endBuf (Result.decoded v (phaseEvents (s.h.push v)))

/-- The Result a BUF command returns from the history `h`. -/
def resultOf (h : History) : Except BufOutcome DisplayValue → Result
  | .error o => Result.missed o
  | .ok v => Result.decoded v (phaseEvents (h.push v))

@[simp] theorem bufVerdict_open (sr : SampleRate) (smp : List Sample) :
    bufVerdict true sr smp = decodeSamples sr smp := rfl

@[simp] theorem bufVerdict_closed (sr : SampleRate) (smp : List Sample) :
    bufVerdict false sr smp = .error .gated := rfl

theorem conclude_error (s : State) (o : BufOutcome) : conclude s (.error o) = s.miss o := rfl

theorem conclude_ok (s : State) (v : DisplayValue) :
    conclude s (.ok v) = (s.pushValue v).endBuf (Result.decoded v (phaseEvents (s.h.push v))) := rfl

@[simp] theorem conclude_g (s : State) (a : Except BufOutcome DisplayValue) : (conclude s a).g = s.g := by
  cases a <;> rfl

@[simp] theorem conclude_tpbQ (s : State) (a : Except BufOutcome DisplayValue) : (conclude s a).tpbQ = s.tpbQ := by
  cases a <;> rfl

@[simp] theorem conclude_port (s : State) (a : Except BufOutcome DisplayValue) : (conclude s a).port = s.port := by
  cases a <;> rfl

@[simp] theorem conclude_stage (s : State) (a : Except BufOutcome DisplayValue) : (conclude s a).stage = .idle := by
  cases a <;> rfl

@[simp] theorem conclude_result (s : State) (a : Except BufOutcome DisplayValue) :
    (conclude s a).result = some (resultOf s.h a) := by
  cases a <;> rfl

/-- The four ways out of the pipeline, in the order of R176. -/
theorem decodeSamples_cases (sr : SampleRate) (smp : List Sample) :
    (syncStart sr (sampleAll smp) = none ∧ decodeSamples sr smp = .error .noSync) ∨
    (∃ i, syncStart sr (sampleAll smp) = some i ∧ extractPacket (streamFrom sr smp i) = none ∧
      decodeSamples sr smp = .error .truncated) ∨
    (∃ i p, syncStart sr (sampleAll smp) = some i ∧ extractPacket (streamFrom sr smp i) = some p ∧
      validatePacket p = none ∧ decodeSamples sr smp = .error .noDigitMatch) ∨
    (∃ i p v, syncStart sr (sampleAll smp) = some i ∧ extractPacket (streamFrom sr smp i) = some p ∧
      validatePacket p = some v ∧ decodeSamples sr smp = .ok v) := by
  cases hs : syncStart sr (sampleAll smp) with
  | none => simp [decodeSamples, hs]
  | some i =>
    cases hp : extractPacket (streamFrom sr smp i) with
    | none => simp [decodeSamples, hs, hp]
    | some p => cases hv : validatePacket p <;> simp [decodeSamples, hs, hp, hv]

/-- The pipeline finds each stage it needs and ends where the samples decide (47_commands.md R174). -/
theorem runPipeline_openBuf (s : State) (smp : List Sample) :
    runPipeline (s.openBuf smp) = .next (conclude s (decodeSamples s.tpbQ smp)) := by
  let sampled := (s.openBuf smp).goTo (.atSync (sampleAll smp))
  rw [runPipeline, execSample_at rfl, thenOp_running rfl]
  obtain ⟨hs, hd⟩ | ⟨i, hs, hp, hd⟩ | ⟨i, p, hs, hp, hv, hd⟩ | ⟨i, p, v, hs, hp, hv, hd⟩ :=
    decodeSamples_cases s.tpbQ smp
  · rw [execSync_none (s := sampled) rfl hs, hd]
    rfl
  all_goals
    rw [execSync_some (s := sampled) rfl hs, thenOp_running rfl, execRle_at rfl, thenOp_running rfl,
      execClkrec_at rfl, thenOp_running rfl, hd]
  · rw [execExtract_none rfl hp]
    rfl
  · rw [execExtract_some rfl hp, thenOp_running rfl, execValidate_none rfl hv]
    rfl
  · rw [execExtract_some rfl hp, thenOp_running rfl, execValidate_some rfl hv, thenOp_running rfl,
      execPush_at rfl, thenOp_running rfl, execPhase_at rfl, thenOp_running rfl, returnOk_at rfl]
    rfl

/-- The BUF command, whole, in every state. -/
theorem exec_buf (smp : List Sample) (s : State) :
    exec (.buf smp) s = .next (conclude s (bufVerdict s.g s.tpbQ smp)) := by
  show execBuf smp s = _
  cases hg : s.g with
  | false => simp [execBuf, hg, conclude_error]
  | true => simp [execBuf, hg, runPipeline_openBuf]

theorem exec_buf_open {s : State} (hg : s.g = true) (smp : List Sample) :
    exec (.buf smp) s = .next (conclude s (decodeSamples s.tpbQ smp)) := by
  rw [exec_buf, hg, bufVerdict_open]

theorem exec_buf_next {smp : List Sample} {s t : State} (h : exec (.buf smp) s = .next t) :
    t = conclude s (bufVerdict s.g s.tpbQ smp) := by
  rw [exec_buf] at h
  cases h
  rfl

/-- The Result that a BUF command is seen to return. -/
theorem exec_buf_result {smp : List Sample} {s t : State} {r : Result} (h : exec (.buf smp) s = .next t)
    (hr : t.result = some r) : r = resultOf s.h (bufVerdict s.g s.tpbQ smp) := by
  rw [exec_buf_next h, conclude_result] at hr
  exact (Option.some.inj hr).symm

/-- A miss or a skip is none of them Ok. -/
theorem bufVerdict_error_ne_ok {g : Bit} {sr : SampleRate} {smp : List Sample} {o : BufOutcome}
    (h : bufVerdict g sr smp = .error o) : o ≠ .ok := by
  cases g with
  | false => cases h; decide
  | true =>
    rw [bufVerdict_open] at h
    obtain ⟨-, hd⟩ | ⟨_, -, -, hd⟩ | ⟨_, _, -, -, -, hd⟩ | ⟨_, _, _, -, -, -, hd⟩ := decodeSamples_cases sr smp
    all_goals
      rw [hd] at h
      cases h
    all_goals decide

/-- A value comes out of VALIDATE. -/
theorem bufVerdict_ok {g : Bit} {sr : SampleRate} {smp : List Sample} {v : DisplayValue}
    (h : bufVerdict g sr smp = .ok v) : ∃ p, validatePacket p = some v := by
  cases g with
  | false => cases h
  | true =>
    rw [bufVerdict_open] at h
    obtain ⟨-, hd⟩ | ⟨_, -, -, hd⟩ | ⟨_, _, -, -, -, hd⟩ | ⟨_, p, _, -, -, hv, hd⟩ := decodeSamples_cases sr smp
    all_goals
      rw [hd] at h
      cases h
    exact ⟨p, hv⟩

/-- Two ways to end: a miss or a skip, or a value pushed and reported. -/
theorem exec_buf_cases {smp : List Sample} {s t : State} (h : exec (.buf smp) s = .next t) :
    (∃ o, o ≠ .ok ∧ t = s.miss o) ∨
    ∃ v, t = (s.pushValue v).endBuf (Result.decoded v (phaseEvents (s.h.push v))) := by
  have ht := exec_buf_next h
  cases ha : bufVerdict s.g s.tpbQ smp with
  | error o => exact .inl ⟨o, bufVerdict_error_ne_ok ha, by rw [ht, ha, conclude_error]⟩
  | ok v => exact .inr ⟨v, by rw [ht, ha, conclude_ok]⟩

end Sys2Proof.Proofs.BufCommand
end

section
/-! PROOFS. The statements about the BUF command as the host sees it: its exits and their effect (R174 to R177), what it
depends on and leaves behind (R178, R202), and its notifications and events (R179, R161, R162, R224). -/

namespace Sys2Proof.Proofs.BufStatements

open Machine Proofs.BufCommand

/-- Settles O7: each way out of the pipeline fixes the matches of the statement one by one. -/
theorem bufRunsPipeline : Obligations.BufRunsPipeline := by
  intro smp s hg
  rw [exec_buf_open hg]
  obtain ⟨hs, hd⟩ | ⟨i, hs, hp, hd⟩ | ⟨i, p, hs, hp, hv, hd⟩ | ⟨i, p, v, hs, hp, hv, hd⟩ :=
    decodeSamples_cases s.tpbQ smp
  · simp only [hs, hd]
    rfl
  · simp only [hs, hp, hd]
    rfl
  · simp only [hs, hp, hv, hd]
    rfl
  · simp only [hs, hp, hv, hd]
    rfl

/-- Settles O6: a closed gate decides before the samples are looked at. -/
theorem bufSkippedWhenGateClosed : Obligations.BufSkippedWhenGateClosed := by
  intro smp s hg
  rw [exec_buf, hg, bufVerdict_closed, ← hg]
  rfl

/-- Settles O8: RESET and GATE are record updates, and `exec_buf` answers for BUF in every state. -/
theorem commandsAlwaysComplete : Obligations.CommandsAlwaysComplete :=
  ⟨fun s => ⟨s.clear, rfl, rfl⟩, fun g s => ⟨s.setGate g, rfl, rfl⟩,
    fun smp s => ⟨_, _, exec_buf smp s, conclude_stage s _, conclude_result s _⟩⟩

/-- Settles O10: each way out of the pipeline, and the closed gate, decides all five equivalences. -/
theorem bufExitOrder : Obligations.BufExitOrder := by
  intro smp s t r ht hr
  rw [exec_buf_result ht hr]
  cases s.g with
  | false => simp [resultOf, Result.missed]
  | true =>
    rw [bufVerdict_open]
    obtain ⟨hs, hd⟩ | ⟨i, hs, hp, hd⟩ | ⟨i, p, hs, hp, hv, hd⟩ | ⟨i, p, v, hs, hp, hv, hd⟩ :=
      decodeSamples_cases s.tpbQ smp
    · simp [resultOf, Result.missed, hd, hs]
    · simp [resultOf, Result.missed, hd, hs, hp]
    · simp [resultOf, Result.missed, hd, hs, hp, hv]
    · simp [resultOf, Result.decoded, hd, hs, hp, hv]

/-- Settles O9: a miss leaves H and records its outcome alone, and a value is pushed before the events are taken. -/
theorem bufOutcomeTable : Obligations.BufOutcomeTable := by
  intro smp s t ht
  obtain rfl := exec_buf_next ht
  have hgated := (bufExitOrder smp s _ _ ht (conclude_result s _)).1
  refine ⟨conclude_g s _, conclude_tpbQ s _, conclude_port s _, _, conclude_result s _, hgated, ?_⟩
  cases ha : bufVerdict s.g s.tpbQ smp with
  | error o => exact ⟨fun _ => ⟨rfl, rfl, rfl⟩, fun ho => absurd ho (bufVerdict_error_ne_ok ha)⟩
  | ok v =>
    exact ⟨fun hne => absurd rfl hne, fun _ => ⟨v, rfl, rfl, rfl, PhaseTable.phasesAreExclusive (s.h.push v)⟩⟩

/-- Settles O11: the verdict is a function of gate, rate and samples, and the Result of the verdict and the history. -/
theorem bufDependsOnBufferOnly : Obligations.BufDependsOnBufferOnly := by
  intro smp s s' t t' r r' hg hsr ht ht' hr hr'
  rw [exec_buf_result ht hr, exec_buf_result ht' hr', exec_buf_next ht, exec_buf_next ht', hg, hsr]
  cases bufVerdict s'.g s'.tpbQ smp with
  | error o => exact ⟨rfl, rfl, fun hh => ⟨rfl, hh⟩⟩
  | ok v => exact ⟨rfl, rfl, fun hh => by rw [hh]; exact ⟨rfl, congrArg (History.push · v) hh⟩⟩

/-- No command reads the Result that stands in its start state (10_state.md R32). -/
theorem exec_ignores_result {i : Instr} (hi : i.format = .cw) (s : State) (r : Option Result) :
    exec i { s with result := r } = exec i s := by
  cases i with
  | reset => rfl
  | gate g => rfl
  | reserved => rfl
  | buf smp =>
    rw [exec_buf, exec_buf]
    cases bufVerdict s.g s.tpbQ smp <;> rfl
  | _ => cases hi

/-- Between commands a miss writes nothing but the Result. -/
theorem miss_eq_of_betweenCommands {s : State} (h : BetweenCommands s) (o : BufOutcome) :
    s.miss o = { s with result := some (Result.missed o) } := by
  obtain ⟨history, g, tpbQ, stage, result, port⟩ := s
  cases h
  rfl

/-- Settles O12: the miss differs from the state before it in the Result, which no command reads. -/
theorem missLeavesNoTrace : Obligations.MissLeavesNoTrace := by
  intro smp s t r hidle ht hr hne i hi
  obtain ⟨o, -, rfl⟩ | ⟨v, rfl⟩ := exec_buf_cases ht
  · rw [miss_eq_of_betweenCommands hidle, exec_ignores_result hi]
  · cases hr
    exact absurd rfl hne

/-- Settles O13: with Ok come the value and at most one event, with any other outcome neither. -/
theorem notificationCounts : Obligations.NotificationCounts := by
  intro smp s t r ht hr
  obtain ⟨o, ho, rfl⟩ | ⟨v, rfl⟩ := exec_buf_cases ht
  · cases hr
    exact ⟨fun h => absurd h ho, fun _ => rfl⟩
  · cases hr
    have hone := PhaseTable.phasesAreExclusive (s.h.push v)
    refine ⟨fun _ => ?_, fun h => absurd rfl h⟩
    simp only [AtMostOneEvent] at hone
    simp only [notificationCount, Result.decoded, Option.isSome_some, Bool.toNat_true]
    omega

/-- Settles O21: such a buffer is all spaces, and SYNC finds nothing in it. -/
theorem silenceNeverSynchronizes : Obligations.SilenceNeverSynchronizes := by
  intro smp s hg hsilent
  have hspaces : ∀ b ∈ sampleAll smp, b = false := by
    intro b hb
    obtain ⟨x, hx, rfl⟩ := List.mem_map.1 hb
    exact decide_eq_false (hsilent x hx)
  rw [bufRunsPipeline smp s hg, Synchronizer.syncStart_spaces hspaces]

/-- A BUF command that returned a value has pushed it, and its events are those of the history it left. -/
theorem exec_buf_value {smp : List Sample} {s t : State} {r : Result} {v : DisplayValue}
    (ht : exec (.buf smp) s = .next t) (hr : t.result = some r) (hv : r.value = some v) :
    t.h = s.h.push v ∧ r.ev = phaseEvents (s.h.push v) := by
  obtain ⟨o, -, rfl⟩ | ⟨w, rfl⟩ := exec_buf_cases ht
  · cases hr
    cases hv
  · cases hr
    cases hv
    exact ⟨rfl, rfl⟩

theorem exec_buf_reported {smp : List Sample} {s t : State} {v : DisplayValue}
    (ht : exec (.buf smp) s = .next t) (hv : reported t = some v) : t.h = s.h.push v := by
  obtain ⟨r, hr, hrv⟩ := Option.bind_eq_some_iff.1 hv
  exact (exec_buf_value ht hr hrv).1

/-- Settles O43: pushing `v` on three `v` gives them back, and they meet Zero or Stopped. -/
theorem eventsAreLevels : Obligations.EventsAreLevels := by
  intro smp s t r v hh ht hr hv
  obtain ⟨hth, hev⟩ := exec_buf_value ht hr hv
  rw [hh] at hth hev
  rw [hth, hev, hh]
  exact ⟨rfl, fun hz => (Phase.phaseZero_iff _).2 ⟨hz, hz, hz⟩, fun hz => (Phase.phaseStopped_iff _).2 ⟨rfl, rfl, hz⟩⟩

/-- Settles O44: the events are those of `[v, Z, Z]`. -/
theorem firstEventAfterReset : Obligations.FirstEventAfterReset := by
  intro sr smp s t r v hs ht hr hv
  cases hs
  rw [(exec_buf_value ht hr hv).2, PhaseTable.phaseEvents_eq_eventRow]
  show PhaseTable.eventRow ⟨v, Z, Z⟩ = _
  by_cases hz : v = Z <;> simp [PhaseTable.eventRow, hz]

/-- Settles O45: three pushes leave no entry of the old history. -/
theorem threeValuesFillHistory : Obligations.ThreeValuesFillHistory := by
  intro a b c s t1 t2 t3 x0 x1 x2 h1 hx2 h2 hx1 h3 hx0
  rw [exec_buf_reported h3 hx0, exec_buf_reported h2 hx1, exec_buf_reported h1 hx2]
  rfl

/-- Settles O15: `BITS` is `sampleAll`, whose definition is the map of the statement. -/
theorem sampleCompletes : Obligations.SampleCompletes :=
  ⟨fun _ _ hs => Sampler.exec_sample_at hs, fun s smp => ⟨_, execSample_at (s.openBuf_stage smp), rfl, rfl, rfl⟩⟩

/-- Settles O16: the sign of a two's-complement word is its top bit. -/
theorem sampleBitIsTopBit : Obligations.SampleBitIsTopBit := by
  intro x
  have hsign : sampleBit x = x.msb := by rw [BitVec.msb_eq_toInt]; rfl
  exact ⟨hsign.trans (BitVec.msb_eq_getLsbD_last x), decide_eq_true_iff, rfl⟩

/-- Settles O17: the two answers of SYNC at its stage. -/
theorem syncOperation : Obligations.SyncOperation :=
  fun _ _ hs => ⟨fun _ hi => execSync_some hs hi, fun hn => execSync_none hs hn⟩

end Sys2Proof.Proofs.BufStatements
end

section
/-! PROOFS. The whole machine: what each instruction that answers a next state has done, said once; the frames and the
invariant that follow from it; and a step as the command it finds on the port. -/

namespace Sys2Proof.Proofs.WholeMachine

open Machine Proofs.BufCommand

/-! ## The commands RESET, GATE and the reserved word, and PUSH -/

theorem exec_reset (s : State) : exec .reset s = .next s.clear := rfl

theorem exec_gate (g : Bit) (s : State) : exec (.gate g) s = .next (s.setGate g) := rfl

theorem exec_reserved (s : State) : exec .reserved s = .refused .reservedCommand := rfl

/-- Settles O1: each field of `State.resetAt` is written out in its definition. -/
theorem resetStateValues : Obligations.ResetStateValues := fun _ => ⟨rfl, rfl, rfl, rfl, rfl, rfl, rfl⟩

/-- Settles O3: `State.clear` against power-on reset, and the first row of the decoder. -/
theorem resetCommandEffect : Obligations.ResetCommandEffect :=
  ⟨exec_reset, fun s => ⟨s.clear, exec_reset s, rfl, rfl⟩, fun _ _ => rfl⟩

/-- Settles O4: `State.setGate`, and the second row of the decoder. -/
theorem gateCommandEffect : Obligations.GateCommandEffect := ⟨exec_gate, fun _ _ => rfl⟩

/-- Settles O5: the meaning looks at no state, and the last row of the decoder. -/
theorem reservedCommandRefused : Obligations.ReservedCommandRefused := ⟨exec_reserved, fun _ _ => rfl⟩

/-- Settles O38: the answer of PUSH at its stage, and its label as the word 6. -/
theorem pushOperation : Obligations.PushOperation := ⟨fun _ _ hs => execPush_at hs, rfl⟩

/-! ## What an instruction does -/

/-- The next states that an instruction can answer. An operation goes on to another stage, misses, or is PUSH. -/
inductive Effect (s : State) : Instr → State → Prop
  | reset : Effect s .reset s.clear
  | gate (g : Bit) : Effect s (.gate g) (s.setGate g)
  | buf (smp : List Sample) : Effect s (.buf smp) (conclude s (bufVerdict s.g s.tpbQ smp))
  | goTo {i : Instr} {st : Stage} (hi : i.format = .op) (hst : StageOk s.stage → StageOk st) : Effect s i (s.goTo st)
  | miss {i : Instr} (hi : i.format = .op) (o : BufOutcome) : Effect s i (s.miss o)
  | push {v : DisplayValue} (hs : s.stage = .atPush v) : Effect s .push ((s.pushValue v).goTo (.atPhase v))

theorem exec_effect {i : Instr} {s t : State} (h : exec i s = .next t) : Effect s i t := by
  cases i with
  | reset => cases h; exact .reset
  | gate g => cases h; exact .gate g
  | buf smp =>
    obtain rfl := exec_buf_next h
    exact .buf smp
  | reserved => cases h
  | sample =>
    obtain ⟨_, _, rfl⟩ := execSample_next h
    exact .goTo rfl fun _ => trivial
  | sync =>
    obtain ⟨_, _, ⟨_, rfl⟩ | ⟨_, _, rfl⟩⟩ := execSync_next h
    · exact .miss rfl _
    · exact .goTo rfl fun _ => trivial
  | rle =>
    obtain ⟨_, _, _, rfl⟩ := execRle_next h
    exact .goTo rfl fun _ => trivial
  | clkrec =>
    obtain ⟨_, _, rfl⟩ := execClkrec_next h
    exact .goTo rfl fun _ => trivial
  | extract =>
    obtain ⟨_, _, ⟨_, rfl⟩ | ⟨_, _, rfl⟩⟩ := execExtract_next h
    · exact .miss rfl _
    · exact .goTo rfl fun _ => trivial
  | validate =>
    obtain ⟨_, _, ⟨_, rfl⟩ | ⟨_, hv, rfl⟩⟩ := execValidate_next h
    · exact .miss rfl _
    · exact .goTo rfl fun _ => PacketValues.validateYieldsDigits _ _ hv
  | push =>
    obtain ⟨_, hs, rfl⟩ := execPush_next h
    exact .push hs
  | phase =>
    obtain ⟨_, hs, rfl⟩ := execPhase_next h
    exact .goTo rfl fun hok => by rwa [hs] at hok

/-! ## Digits -/

theorem historyOk_initial : HistoryOk History.initial := by
  unfold HistoryOk
  decide

theorem historyOk_push {h : History} {v : DisplayValue} (hh : HistoryOk h) (hv : isDisplayValue v = true) :
    HistoryOk (h.push v) :=
  ⟨hv, hh.1, hh.2.1⟩

/-- A BUF command decodes no value but digits. -/
theorem isDisplayValue_of_bufVerdict {g : Bit} {sr : SampleRate} {smp : List Sample} {v : DisplayValue}
    (h : bufVerdict g sr smp = .ok v) : isDisplayValue v = true := by
  obtain ⟨p, hp⟩ := bufVerdict_ok h
  exact PacketValues.validateYieldsDigits p v hp

theorem historyOk_conclude {s : State} (hs : HistoryOk s.h) (smp : List Sample) :
    HistoryOk (conclude s (bufVerdict s.g s.tpbQ smp)).h := by
  cases ha : bufVerdict s.g s.tpbQ smp with
  | error o => exact hs
  | ok v => exact historyOk_push hs (isDisplayValue_of_bufVerdict ha)

/-- Settles O51: each effect either keeps the digits or writes a value VALIDATE let through. -/
theorem everyInstructionKeepsDigits : Obligations.EveryInstructionKeepsDigits := by
  intro i s t hh hst h
  cases exec_effect h with
  | reset => exact ⟨historyOk_initial, trivial⟩
  | gate g => exact ⟨hh, hst⟩
  | buf smp => exact ⟨historyOk_conclude hh smp, by rw [conclude_stage]; trivial⟩
  | goTo _ hnext => exact ⟨hh, hnext hst⟩
  | miss _ o => exact ⟨hh, trivial⟩
  | push hs =>
    rw [hs] at hst
    exact ⟨historyOk_push hh hst, hst⟩

/-! ## Frames -/

/-- Settles O52: each effect names the fields it writes. -/
theorem onlyNamedWriters : Obligations.OnlyNamedWriters := by
  intro i s t h
  cases exec_effect h with
  | reset => exact ⟨rfl, rfl, fun hne _ => absurd rfl hne, fun hne => absurd rfl hne⟩
  | gate g => exact ⟨rfl, rfl, fun _ hne => absurd rfl (hne g), fun _ _ _ => rfl⟩
  | buf smp =>
    refine ⟨conclude_tpbQ s _, conclude_port s _, fun _ _ => conclude_g s _, fun _ _ hnone => ?_⟩
    have hrep := hnone smp rfl
    cases ha : bufVerdict s.g s.tpbQ smp with
    | error o => rfl
    | ok v =>
      rw [ha] at hrep
      cases hrep
  | goTo => exact ⟨rfl, rfl, fun _ _ => rfl, fun _ _ _ => rfl⟩
  | miss => exact ⟨rfl, rfl, fun _ _ => rfl, fun _ _ _ => rfl⟩
  | push => exact ⟨rfl, rfl, fun _ _ => rfl, fun _ hne => absurd rfl hne⟩

/-- Settles O56: with the stage idle every operation takes its last branch. -/
theorem operationsOnlyInsideBuf : Obligations.OperationsOnlyInsideBuf := by
  rintro i ⟨h, g, tpbQ, stage, result, port⟩ hi hs
  cases hs
  cases i
  case reset | gate | buf | reserved => cases hi
  all_goals exact ⟨_, rfl⟩

/-! ## Steps -/

/-- Settles O48: `fetch` finds the command, and the rest of `step` is `exec`. -/
theorem stepRunsDecodedCommand : Obligations.StepRunsDecodedCommand := by
  intro s i rest hd
  rw [step, fetch_command hd]
  rfl

/-- Settles O49: `fetch` finds nothing, and the step is `State.rest`. -/
theorem stepWithoutCommandIsIdle : Obligations.StepWithoutCommandIsIdle := by
  intro s hp
  have hf : fetch s.port = .empty := by rw [hp, fetch_nil]
  rw [step, hf]
  rfl

theorem step_incomplete {s : State} {e : DecodeError} (hp : s.port ≠ []) (hd : decode .cw s.port = .error e) :
    step s = .refused .portIncomplete := by
  obtain ⟨b, bits, hbits⟩ := List.exists_cons_of_ne_nil hp
  rw [hbits] at hd
  rw [step, hbits, fetch_incomplete hd]

/-- A command off the port answers a next state, unless it is the reserved one (60_exceptions.md R197). -/
theorem exec_command {i : Instr} (hi : i.format = .cw) (s : State) :
    (i = .reserved ∧ exec i s = .refused .reservedCommand) ∨ ∃ t, exec i s = .next t := by
  cases i with
  | reset => exact .inr ⟨_, exec_reset s⟩
  | gate g => exact .inr ⟨_, exec_gate g s⟩
  | buf smp => exact .inr ⟨_, exec_buf smp s⟩
  | reserved => exact .inl ⟨rfl, exec_reserved s⟩
  | _ => cases hi

/-- Settles O53: none of the three cases of a step looks at the Result. -/
theorem resultIsNeverRead : Obligations.ResultIsNeverRead := by
  intro s r
  obtain ⟨hp, hstep⟩ | ⟨i, rest, hd, hstep⟩ | ⟨e, hp, hd, hstep⟩ := step_cases s
  · exact (stepWithoutCommandIsIdle { s with result := r } hp).trans hstep.symm
  · rw [hstep, stepRunsDecodedCommand { s with result := r } i rest hd]
    exact BufStatements.exec_ignores_result (decode_cw_format hd) (s.take rest) r
  · exact (step_incomplete (s := { s with result := r }) hp hd).trans hstep.symm

/-- Settles O54: of the three cases of a step one is a refusal, and the commands answer or are refused. -/
theorem stepNeverFaults : Obligations.StepNeverFaults := by
  intro s f h
  obtain ⟨-, hstep⟩ | ⟨i, rest, hd, hstep⟩ | ⟨e, -, -, hstep⟩ := step_cases s
  · cases hstep.symm.trans h
  · obtain ⟨-, hexec⟩ | ⟨t, hexec⟩ := exec_command (decode_cw_format hd) (s.take rest)
    all_goals cases (hstep.trans hexec).symm.trans h
  · cases hstep.symm.trans h

/-- Settles O55: a step is refused by the reserved command or because `fetch` found half a command. -/
theorem stepRefusals : Obligations.StepRefusals := by
  intro s r h
  obtain ⟨-, hstep⟩ | ⟨i, rest, hd, hstep⟩ | ⟨e, hp, hd, hstep⟩ := step_cases s
  · cases hstep.symm.trans h
  · obtain ⟨rfl, hexec⟩ | ⟨t, hexec⟩ := exec_command (decode_cw_format hd) (s.take rest)
    · cases (hstep.trans hexec).symm.trans h
      exact .inl ⟨rfl, rest, hd⟩
    · cases (hstep.trans hexec).symm.trans h
  · cases hstep.symm.trans h
    exact .inr ⟨rfl, hp, e, hd⟩

/-! ## The invariant -/

/-- Settles O2: the history is three `Z`, nothing runs, and there is no Result to check. -/
theorem resetMeetsInvariant : Obligations.ResetMeetsInvariant :=
  fun _ => ⟨historyOk_initial, rfl, fun _ h => nomatch h⟩

/-- A BUF command returns a Result of the shape R80 to R82 give it. -/
theorem resultOk_resultOf (h : History) (g : Bit) (sr : SampleRate) (smp : List Sample) :
    ResultOk (resultOf h (bufVerdict g sr smp)) := by
  cases ha : bufVerdict g sr smp with
  | error o =>
    have hne := bufVerdict_error_ne_ok ha
    exact ⟨⟨fun ho => absurd ho hne, nofun⟩, nofun, Nat.zero_le 1, fun _ => rfl⟩
  | ok v =>
    refine ⟨⟨fun _ => rfl, fun _ => rfl⟩, ?_, PhaseTable.phasesAreExclusive (h.push v), fun hne => absurd rfl hne⟩
    rintro _ ⟨⟩
    exact isDisplayValue_of_bufVerdict ha

theorem inv_rest {s : State} (h : Inv s) : Inv s.rest := ⟨h.1, h.2.1, nofun⟩

theorem inv_take {s : State} (h : Inv s) (rest : List Bit) : Inv (s.take rest) := h

/-- Every command keeps the invariant; of the last clause only a BUF command has something to show. -/
theorem inv_exec {i : Instr} {s t : State} (hi : i.format = .cw) (hs : Inv s) (h : exec i s = .next t) : Inv t := by
  obtain ⟨hh, hidle, -⟩ := hs
  cases exec_effect h with
  | reset => exact ⟨historyOk_initial, rfl, nofun⟩
  | gate g => exact ⟨hh, hidle, nofun⟩
  | buf smp =>
    refine ⟨historyOk_conclude hh smp, conclude_stage s _, fun r hr => ?_⟩
    rw [exec_buf_result h hr]
    exact resultOk_resultOf s.h s.g s.tpbQ smp
  | goTo hop => cases hi.symm.trans hop
  | miss hop => cases hi.symm.trans hop
  | push => cases hi

/-- Settles O50: a step is idle or a command, and each keeps the invariant. -/
theorem stepKeepsInvariant : Obligations.StepKeepsInvariant := by
  intro s t hs h
  obtain ⟨-, hstep⟩ | ⟨i, rest, hd, hstep⟩ | ⟨e, -, -, hstep⟩ := step_cases s
  · cases hstep.symm.trans h
    exact inv_rest hs
  · exact inv_exec (decode_cw_format hd) (inv_take hs rest) (hstep.symm.trans h)
  · cases hstep.symm.trans h

end Sys2Proof.Proofs.WholeMachine
end

section
/-! PROOFS. The flat encoding read back (R77 to R79, R85), and the fields of the packed record (R80 to R82). -/

namespace Sys2Proof.Proofs.Encodings

open Machine

/-- Samples written one after the other are taken off one by one. -/
theorem takeSamples_flatMap (smp : List Sample) (rest : List Bit) :
    takeSamples smp.length ((smp.flatMap fun x => bitsOfNat Config.SAMPLE_W x.toNat) ++ rest) = some (smp, rest) := by
  induction smp with
  | nil => rfl
  | cons x smp ih =>
    have hx : BitVec.ofNat Config.SAMPLE_W (x.toNat % 2 ^ Config.SAMPLE_W) = x := by
      rw [Nat.mod_eq_of_lt x.isLt, BitVec.ofNat_toNat, BitVec.setWidth_eq]
    rw [List.flatMap_cons, List.append_assoc, List.length_cons, takeSamples, takeWord_bitsOfNat]
    simp only [ih, hx, Option.map_some]

/-- The operand words of BUF; the length must fit the word `N`, which is read modulo `2^32`. -/
theorem decodeBuffer_encodeBuffer {smp : List Sample} (h : lengthFits smp = true) (rest : List Bit) :
    decodeBuffer (encodeBuffer smp ++ rest) = .ok (.buf smp, rest) := by
  have hlen : smp.length % 2 ^ Config.COUNT_W = smp.length := Nat.mod_eq_of_lt (of_decide_eq_true h)
  rw [decodeBuffer, encodeBuffer, List.append_assoc, takeWord_bitsOfNat, hlen]
  simp only [takeSamples_flatMap]

/-- Settles O58: behind either word stand the operand words. -/
theorem bufOperandBitIgnored : Obligations.BufOperandBitIgnored := fun _ _ rest h => decodeBuffer_encodeBuffer h rest

/-- Settles O57: a BUF word is followed by its operand words, and every other code is a row of the decoder. -/
theorem decodeAfterEncode : Obligations.DecodeAfterEncode := by
  intro i rest h
  cases i with
  | buf smp => exact bufOperandBitIgnored false smp rest h
  | _ => rfl

/-- Settles O59: the decoder run on each word. -/
theorem wordsDecodeAsTabled : Obligations.WordsDecodeAsTabled :=
  ⟨rfl, rfl, rfl, rfl, rfl, rfl, rfl, rfl, rfl, rfl, rfl⟩

/-- `EV[i]` in the order of R82. -/
theorem getLsbD_eventBits (e : Events) :
    (eventBits e).getLsbD 0 = e.zero ∧ (eventBits e).getLsbD 1 = e.reset ∧ (eventBits e).getLsbD 2 = e.starting ∧
    (eventBits e).getLsbD 3 = e.running ∧ (eventBits e).getLsbD 4 = e.stopped := by
  simp only [eventBits, BitVec.getLsbD_append, BitVec.getLsbD_ofBool]
  simp

/-- EV stands above VALID and VALUE, from bit 49 on. -/
theorem getLsbD_packResult_event (r : Result) {i : Nat} (hi : i < 5) :
    (packResult r).getLsbD (49 + i) = (eventBits r.ev).getLsbD i := by
  have hvalue : ¬ 49 + i < Config.DISPLAY_W := by simp only [Config.DISPLAY_W]; omega
  have hvalid : ¬ 49 + i - Config.DISPLAY_W < 1 := by simp only [Config.DISPLAY_W]; omega
  have hplace : 49 + i - Config.DISPLAY_W - 1 = i := by simp only [Config.DISPLAY_W]; omega
  simp only [packResult, BitVec.getLsbD_append, hvalue, hvalid, hplace, hi, if_false, if_true]

theorem getLsbD_packResult_valid (r : Result) : (packResult r).getLsbD 48 = r.value.isSome := by
  simp only [packResult, BitVec.getLsbD_append, BitVec.getLsbD_ofBool]
  simp

theorem packResult_value (r : Result) : (packResult r).extractLsb' 0 48 = r.value.getD 0 :=
  BitVec.extractLsb'_append_eq_right

theorem packResult_outcome (r : Result) : (packResult r).extractLsb' 54 3 = outcomeCode r.outcome := by
  rw [packResult, BitVec.extractLsb'_append_eq_of_le (by decide), BitVec.extractLsb'_append_eq_of_le (by decide),
    BitVec.extractLsb'_append_eq_of_le (by decide)]
  exact BitVec.extractLsb'_eq_self

theorem outcomeCode_le (o : BufOutcome) : (outcomeCode o).toNat ≤ 4 := by cases o <;> decide

/-- Settles O60: the fields one by one, EV through its five bits. -/
theorem resultRecordLayout : Obligations.ResultRecordLayout := by
  intro r
  obtain ⟨hzero, hreset, hstarting, hrunning, hstopped⟩ := getLsbD_eventBits r.ev
  refine ⟨packResult_outcome r, outcomeCode_le r.outcome, ?_, ?_, ?_, ?_, ?_, getLsbD_packResult_valid r, ?_, ?_⟩
  · exact (getLsbD_packResult_event r (by decide)).trans hzero
  · exact (getLsbD_packResult_event r (by decide)).trans hreset
  · exact (getLsbD_packResult_event r (by decide)).trans hstarting
  · exact (getLsbD_packResult_event r (by decide)).trans hrunning
  · exact (getLsbD_packResult_event r (by decide)).trans hstopped
  · intro v hv
    rw [packResult_value, hv, Option.getD_some]
  · intro hnone
    rw [packResult_value, hnone, Option.getD_none]

end Sys2Proof.Proofs.Encodings
end

section
/-! PROOFS. A frame on an ideal line (R65, R88): where its bit periods stand in the samples, why RLE and CLKREC give its
line back bit for bit, the bytes in its slots, and the statements of the law of 95_test_vectors.md and of R162. -/

namespace Sys2Proof.Proofs.IdealLine

open Machine Proofs.MaximalRuns Proofs.ClockRecovery

/-! ## The positions of bit periods -/

/-- A position is off by half a sample at most. -/
theorem linePos_bounds (sr : SampleRate) (j : Nat) :
    2400 * linePos sr j ≤ 2 * (j * sr.hz) + 1200 ∧ 2 * (j * sr.hz) + 1200 < 2400 * linePos sr j + 2400 := by
  rw [linePos, Config.BAUD, Nat.mul_assoc]
  omega

@[simp] theorem linePos_zero (sr : SampleRate) : linePos sr 0 = 0 := by
  have := linePos_bounds sr 0
  omega

/-- From 1200 samples a second on every bit period has a sample. -/
theorem linePos_strictMono {sr : SampleRate} (hr : RateRecovers sr) : StrictMono (linePos sr) := by
  refine strictMono_nat_of_lt_succ fun j => ?_
  have hhz : 1200 ≤ sr.hz := by
    unfold RateRecovers at hr
    omega
  have hj := linePos_bounds sr j
  have hsucc := linePos_bounds sr (j + 1)
  rw [Nat.add_one_mul j] at hsucc
  omega

/-- The samples of `m` bit periods are less than half a bit period away from `m` of them, so CLKREC counts `m`. -/
theorem reps_linePos_sub {sr : SampleRate} (hr : RateRecovers sr) (j m : Nat) :
    reps sr (linePos sr (j + m) - linePos sr j) = m := by
  have hmono := (linePos_strictMono hr).monotone (Nat.le_add_right j m)
  have hstart := linePos_bounds sr j
  have hend := linePos_bounds sr (j + m)
  rw [Nat.add_mul] at hend
  obtain hsr | hsr := hr
  · rw [reps_unitRate hsr]
    rw [hsr] at hstart hend
    omega
  · rw [RepeatCount.reps_eq_iff, Nat.add_one_mul (2 * m), Nat.mul_assoc]
    omega

/-! ## The sampled line -/

/-- SAMPLE reads back what FRAME wrote. -/
@[simp] theorem sampleBit_lineSample (b : Bit) : sampleBit (lineSample b) = b := by cases b <;> decide

/-- `BITS` of a line from bit period `j` on. -/
def lineBits (sr : SampleRate) (j : Nat) (line : List Bit) : List Bit := sampleAll (sampleLineFrom sr j line)

@[simp] theorem lineBits_nil (sr : SampleRate) (j : Nat) : lineBits sr j [] = [] := rfl

theorem lineBits_cons (sr : SampleRate) (j : Nat) (b : Bit) (line : List Bit) :
    lineBits sr j (b :: line) =
      List.replicate (linePos sr (j + 1) - linePos sr j) b ++ lineBits sr (j + 1) line := by
  simp [lineBits, sampleLineFrom, sampleAll]

/-- The samples of `n` bit periods of one bit, and of the line after them. -/
theorem lineBits_replicate_append {sr : SampleRate} (hr : RateRecovers sr) (j n : Nat) (b : Bit) (line : List Bit) :
    lineBits sr j (List.replicate n b ++ line) =
      List.replicate (linePos sr (j + n) - linePos sr j) b ++ lineBits sr (j + n) line := by
  induction n generalizing j with
  | zero => simp
  | succ n ih =>
    have hfirst := (linePos_strictMono hr).monotone (Nat.le_add_right j 1)
    have hrest := (linePos_strictMono hr).monotone (Nat.le_add_right (j + 1) n)
    have hplace : j + 1 + n = j + (n + 1) := by omega
    rw [hplace] at hrest
    rw [List.replicate_succ, List.cons_append, lineBits_cons, ih, ← List.append_assoc, List.replicate_append_replicate,
      hplace]
    congr 2
    omega

/-! ## RLE and CLKREC on the sampled line -/

/-- The run of the bit periods `i` to `j - 1`. -/
def lineRun {sr : SampleRate} (hr : RateRecovers sr) {i j : Nat} (hij : i < j) (b : Bit) : Run :=
  ⟨b, linePos sr j - linePos sr i, Nat.sub_pos_of_lt (linePos_strictMono hr hij)⟩

theorem reps_lineRun {sr : SampleRate} (hr : RateRecovers sr) {i j : Nat} (hij : i < j) (b : Bit) :
    reps sr (lineRun hr hij b).len = j - i := by
  obtain ⟨m, rfl⟩ := Nat.exists_eq_add_of_le hij.le
  rw [Nat.add_sub_cancel_left]
  exact reps_linePos_sub hr i m

/-- A bit period of the same bit lengthens the run by its samples. -/
theorem rleFrom_lineRun_same {sr : SampleRate} (hr : RateRecovers sr) {i j : Nat} (hij : i < j) (b : Bit)
    (line : List Bit) :
    rleFrom (lineRun hr hij b) (lineBits sr j (b :: line)) =
      rleFrom (lineRun hr (Nat.lt_add_right 1 hij) b) (lineBits sr (j + 1) line) := by
  have hi := linePos_strictMono hr hij
  have hj := linePos_strictMono hr (Nat.lt_add_one j)
  rw [lineBits_cons]
  refine (rleFrom_replicate (lineRun hr hij b) _ _).trans ?_
  simp only [lineRun]
  congr 2
  omega

theorem rleFrom_lineRun_change {sr : SampleRate} (hr : RateRecovers sr) {i j : Nat} (hij : i < j) {b c : Bit}
    (h : c ≠ b) (line : List Bit) :
    rleFrom (lineRun hr hij b) (lineBits sr j (c :: line)) =
      lineRun hr hij b :: rleFrom (lineRun hr (Nat.lt_add_one j) c) (lineBits sr (j + 1) line) := by
  rw [lineBits_cons]
  exact rleFrom_change_replicate (cur := lineRun hr hij b) (q := lineRun hr (Nat.lt_add_one j) c) h _

/-- The invariant of RLE and CLKREC along an ideal line: the run being counted covers whole bit periods. -/
theorem recoverClock_rleFrom_lineRun {sr : SampleRate} (hr : RateRecovers sr) {i j : Nat} (hij : i < j) (b : Bit)
    (line : List Bit) :
    recoverClock sr (rleFrom (lineRun hr hij b) (lineBits sr j line)) = List.replicate (j - i) b ++ line := by
  induction line generalizing i j b with
  | nil => rw [lineBits_nil, rleFrom_nil, recoverClock_singleton, reps_lineRun, List.append_nil]; rfl
  | cons c line ih =>
    by_cases h : c = b
    · subst h
      rw [rleFrom_lineRun_same, ih, show j + 1 - i = j - i + 1 by omega, List.replicate_succ', List.append_assoc,
        List.singleton_append]
    · rw [rleFrom_lineRun_change hr hij h, recoverClock_cons, ih, reps_lineRun, Nat.add_sub_cancel_left,
        List.replicate_one, List.singleton_append]
      rfl

/-- RLE and CLKREC give an ideal line back bit for bit. -/
theorem recoverClock_rleRuns_lineBits {sr : SampleRate} (hr : RateRecovers sr) (j : Nat) (line : List Bit) :
    recoverClock sr (rleRuns (lineBits sr j line)) = line := by
  cases line with
  | nil => rfl
  | cons b line =>
    have hruns : rleRuns (lineBits sr j (b :: line)) =
        rleFrom (lineRun hr (Nat.lt_add_one j) b) (lineBits sr (j + 1) line) := by
      rw [lineBits_cons]
      exact rleRuns_replicate_append (lineRun hr (Nat.lt_add_one j) b) _
    rw [hruns, recoverClock_rleFrom_lineRun, Nat.add_sub_cancel_left, List.replicate_one, List.singleton_append]

/-! ## The slots of a frame -/

@[simp] theorem length_slotBits (b : Byte) : (slotBits b).length = 10 := by simp [slotBits]

theorem getElem?_slotBits (b : Byte) {i : Nat} (hi : i < 8) : (slotBits b)[i + 1]? = some (b.getLsbD i) := by
  change ((List.range 8).map (fun i => b.getLsbD i) ++ [true])[i]? = _
  rw [List.getElem?_append_left (by simpa using hi), List.getElem?_map, List.getElem?_range hi, Option.map_some]

/-- Position `n` of slot `k`. -/
theorem getElem?_flatMap_slotBits (bytes : List Byte) (more : List Bit) {k n : Nat} (hn : n < 10)
    (hk : k < bytes.length) : (bytes.flatMap slotBits ++ more)[10 * k + n]? = (slotBits bytes[k])[n]? := by
  induction bytes generalizing k with
  | nil => cases hk
  | cons b bytes ih =>
    rw [List.flatMap_cons, List.append_assoc]
    cases k with
    | zero =>
      rw [Nat.mul_zero, Nat.zero_add, List.getElem?_append_left (by rwa [length_slotBits])]
      rfl
    | succ k =>
      have hplace : 10 * (k + 1) + n - 10 = 10 * k + n := by omega
      rw [List.getElem?_append_right (by simp; omega), length_slotBits, hplace]
      exact ih (Nat.lt_of_succ_lt_succ hk)

/-- The `n` lowest bits of a number, weighted and added up. -/
theorem sum_testBit (x n : Nat) : ((List.range n).map fun i => 2 ^ i * (x.testBit i).toNat).sum = x % 2 ^ n := by
  induction n with
  | zero => simp [Nat.mod_one]
  | succ n ih =>
    rw [List.range_succ, List.map_append, List.sum_append, ih, List.map_singleton, List.sum_singleton,
      Nat.toNat_testBit, Nat.mod_pow_succ]

/-- The stream of a frame: its nine slots and the marks after them. -/
def frameStream (bytes : Packet) (tail : Nat) : List Bit := bytes.toList.flatMap slotBits ++ List.replicate tail true

theorem length_frameStream (bytes : Packet) (tail : Nat) : (frameStream bytes tail).length = 90 + tail := by
  simp [frameStream, List.length_flatMap, Config.PACKET_LEN]

/-- Byte `k` is read where slot `k` has its data bits. -/
theorem byteAt_frameStream (bytes : Packet) (tail : Nat) {k : Nat} (hk : k < 9) :
    byteAt ((frameStream bytes tail).drop 1) k = bytes[k] := by
  refine BitVec.eq_of_toNat_eq ?_
  have hbit : ∀ i ∈ List.range 8,
      2 ^ i * (((frameStream bytes tail).drop 1).getD (10 * k + i) false).toNat =
        2 ^ i * (bytes[k].toNat.testBit i).toNat := by
    intro i hi
    have hi8 : i < 8 := List.mem_range.1 hi
    have hpos : 1 + (10 * k + i) = 10 * k + (i + 1) := by omega
    rw [List.getD_eq_getElem?_getD, List.getElem?_drop, hpos, frameStream,
      getElem?_flatMap_slotBits bytes.toList _ (by omega) (by simpa using hk), getElem?_slotBits _ hi8]
    rfl
  rw [ByteExtractor.toNat_byteAt, List.map_congr_left hbit, sum_testBit]
  exact Nat.mod_eq_of_lt bytes[k].isLt

theorem extractPacket_frameStream (bytes : Packet) (tail : Nat) :
    extractPacket (frameStream bytes tail) = some bytes := by
  rw [extractPacket_long (by rw [length_frameStream]; omega)]
  refine congrArg some (Vector.ext fun k hk => ?_)
  rw [packetOf_get _ k hk, byteAt_frameStream bytes tail hk]

/-- A frame begins with the start bit of its first byte. -/
theorem frameStream_eq_cons (bytes : Packet) (tail : Nat) : ∃ rest, frameStream bytes tail = false :: rest := by
  have hstart : (frameStream bytes tail)[0]? = some false :=
    getElem?_flatMap_slotBits bytes.toList _ (k := 0) (n := 0) (by decide) (by simp)
  rw [← List.head?_eq_getElem?] at hstart
  obtain ⟨rest, hrest⟩ := List.head?_eq_some_iff.1 hstart
  exact ⟨rest, hrest⟩

/-! ## A frame in the samples -/

/-- `BITS` of a frame: the idle marks, then the frame from its bit period on. -/
theorem sampleAll_frameBuffer {sr : SampleRate} (hr : RateRecovers sr) (bytes : Packet) (idle tail : Nat) :
    sampleAll (frameBuffer sr bytes idle tail) =
      List.replicate (linePos sr idle) true ++ lineBits sr idle (frameStream bytes tail) := by
  have hline := lineBits_replicate_append hr 0 idle true (frameStream bytes tail)
  rw [Nat.zero_add, linePos_zero, Nat.sub_zero] at hline
  rw [← hline, frameStream, ← List.append_assoc]
  rfl

/-- Ten idle bit periods pass the idle test. -/
theorem idleThreshold_le_linePos {sr : SampleRate} (hr : RateRecovers sr) {idle : Nat} (hidle : 10 ≤ idle) :
    idleThreshold sr ≤ linePos sr idle := by
  refine le_trans ?_ ((linePos_strictMono hr).monotone hidle)
  have hten := linePos_bounds sr 10
  unfold RateRecovers at hr
  unfold idleThreshold
  omega

/-- SYNC finds the start bit of the first byte. -/
theorem syncStart_frameBuffer {sr : SampleRate} (hr : RateRecovers sr) (bytes : Packet) {idle : Nat}
    (hidle : 10 ≤ idle) (tail : Nat) :
    syncStart sr (sampleAll (frameBuffer sr bytes idle tail)) = some (linePos sr idle) := by
  obtain ⟨rest, hrest⟩ := frameStream_eq_cons bytes tail
  obtain ⟨n, hwidth⟩ := Nat.exists_eq_add_of_le' (Nat.sub_pos_of_lt (linePos_strictMono hr (Nat.lt_add_one idle)))
  rw [sampleAll_frameBuffer hr, hrest, lineBits_cons, hwidth, List.replicate_succ, List.cons_append,
    Synchronizer.syncStart_eq_iff]
  exact Synchronizer.firstMarker_space_waiting (idleThreshold_le_linePos hr hidle) _

/-- What RLE and CLKREC make of the bits from there on is the frame's line. -/
theorem recoverClock_frameBuffer {sr : SampleRate} (hr : RateRecovers sr) (bytes : Packet) (idle tail : Nat) :
    recoverClock sr (rleRuns ((sampleAll (frameBuffer sr bytes idle tail)).drop (linePos sr idle))) =
      frameStream bytes tail := by
  rw [sampleAll_frameBuffer hr, List.drop_left' List.length_replicate, recoverClock_rleRuns_lineBits hr]

/-- Settles O46: SYNC finds the frame, the stream is its line, and EXTRACT reads its slots. -/
theorem frameOnIdealLineDecodes : Obligations.FrameOnIdealLineDecodes := by
  intro bytes idle tail s hr hidle hg
  have hsync := syncStart_frameBuffer hr bytes hidle tail
  have hpacket : extractPacket (recoverClock s.tpbQ (rleRuns ((sampleAll (frameBuffer s.tpbQ bytes idle tail)).drop
      (linePos s.tpbQ idle)))) = some bytes := by
    rw [recoverClock_frameBuffer hr, extractPacket_frameStream]
  refine ⟨⟨_, hsync, hpacket⟩, ?_⟩
  rw [BufStatements.bufRunsPipeline _ s hg, hsync]
  simp only [hpacket]

/-! ## Every history -/

/-- A Packet that carries the six characters of `v` at offset 0. -/
def digitPacket (v : DisplayValue) : Packet :=
  #v[charAt v 0, charAt v 1, charAt v 2, charAt v 3, charAt v 4, charAt v 5, 0, 0, 0]

theorem getElem?_digitPacket (v : DisplayValue) {j : Nat} (hj : j < 6) : (digitPacket v)[j]? = some (charAt v j) := by
  interval_cases j <;> rfl

theorem displayOf_window_digitPacket (v : DisplayValue) : displayOf (window (digitPacket v) 0) = v := by
  refine PacketValues.eq_of_charAt_eq fun j hj => ?_
  rw [DigitValidator.charAt_displayOf _ j hj]
  interval_cases j <;> rfl

theorem validatePacket_digitPacket {v : DisplayValue} (hv : isDisplayValue v = true) :
    validatePacket (digitPacket v) = some v := by
  have hdigits : DigitsFrom (digitPacket v) (0 : Fin 4) := by
    intro j hj
    refine ⟨charAt v j, ?_, (DigitValidator.isDigit_iff _).1 ((PacketValues.isDisplayValue_iff v).1 hv j hj)⟩
    rw [Fin.val_zero, Nat.zero_add, getElem?_digitPacket v hj]
  rw [DigitValidator.validatePacket_first hdigits fun _ h => absurd h (Nat.not_lt_zero _),
    displayOf_window_digitPacket]

/-- The buffer of a frame that carries `v`. -/
def digitFrame (sr : SampleRate) (v : DisplayValue) : List Sample := frameBuffer sr (digitPacket v) 10 0

/-- Wherever the gate is open, the frame of a value pushes it. -/
theorem exec_digitFrame {s : State} (hr : RateRecovers s.tpbQ) (hg : s.g = true) {v : DisplayValue}
    (hv : isDisplayValue v = true) :
    exec (.buf (digitFrame s.tpbQ v)) s = .next (BufCommand.conclude s (.ok v)) := by
  have hexec := (frameOnIdealLineDecodes (digitPacket v) 10 0 s hr (Nat.le_refl 10) hg).2
  rw [validatePacket_digitPacket hv] at hexec
  exact hexec

/-- Settles O47: the frames of the oldest, the middle and the newest entry, in that order. -/
theorem everyHistoryReachable : Obligations.EveryHistoryReachable := by
  rintro sr ⟨v0, v1, v2⟩ hr ⟨hv0, hv1, hv2⟩
  exact ⟨digitFrame sr v2, digitFrame sr v1, digitFrame sr v0, _, _, _, _, rfl, exec_digitFrame hr rfl hv2,
    exec_digitFrame hr rfl hv1, exec_digitFrame hr rfl hv0, rfl⟩

end Sys2Proof.Proofs.IdealLine
end
